-- ==== Sys2Proof/Word.lean ====
section
/-! DEFINITION. The word types of the goberan CORE (spec/00_scope.md R7, R8). -/

namespace Sys2Proof

/-- A 32-bit unit of memory or register storage (R7, glossary "Word"). -/
abbrev Word := BitVec 32

/-- The smallest addressable unit of data memory (R33). -/
abbrev Byte := BitVec 8

/-- A register index: a 4-bit instruction field, so always in `[0, 16)` (R14). -/
abbrev Reg := BitVec 4

end Sys2Proof
end

