-- ==== Sys2Proof/Syntax.lean ====
section
/-! DEFINITION. The instructions of the goberan CORE: one constructor per row of spec/opcode_table.json
(spec/30_encoding.md R57 to R63). Fields that no rule reads (R65) are no part of an instruction;
notes/assumptions/10.md. -/

namespace Sys2Proof

/-- The second operand of a register-format instruction (R58). -/
inductive Operand where
  /-- `q = 0`: register `c`. -/
  | reg (c : Reg)
  /-- `q = 1`: the 16-bit immediate; `fill` is `v`, which makes its high half ones. -/
  | imm (fill : Bool) (value : BitVec 16)
  deriving DecidableEq, Repr

/-- The condition selector `cond` of a branch (R63), in the order of its values 0 to 7. -/
inductive Cond where
  /-- 0: `N`. -/
  | mi
  /-- 1: `Z`. -/
  | eq
  /-- 2: `C`. -/
  | cs
  /-- 3: `V`. -/
  | vs
  /-- 4: `C or Z`. -/
  | ls
  /-- 5: `N != V`. -/
  | lt
  /-- 6: `(N != V) or Z`. -/
  | le
  /-- 7: always. -/
  | always
  deriving DecidableEq, Repr

/-- The instruction set. `a` is the destination (the source of a store), `b` the first source or base register,
`c` the second operand or the target register of a branch. -/
inductive Instr where
  /-- MOV, passthrough (R69). -/
  | mov (a : Reg) (c : Operand)
  /-- MOV, load upper half (R70). -/
  | movu (a : Reg) (value : BitVec 16)
  /-- MOV, packed flags word (R71). -/
  | movf (a : Reg)
  /-- MOV, auxiliary register (R72). -/
  | movh (a : Reg)
  /-- Logical shift left (R73). -/
  | lsl (a b : Reg) (c : Operand)
  /-- Arithmetic shift right (R74). -/
  | asr (a b : Reg) (c : Operand)
  /-- Rotate right (R75). -/
  | ror (a b : Reg) (c : Operand)
  /-- AND (R76). -/
  | and (a b : Reg) (c : Operand)
  /-- AND-NOT (R77). -/
  | ann (a b : Reg) (c : Operand)
  /-- Inclusive OR (R78). -/
  | ior (a b : Reg) (c : Operand)
  /-- Exclusive OR (R79). -/
  | xor (a b : Reg) (c : Operand)
  /-- ADD (R80). -/
  | add (a b : Reg) (c : Operand)
  /-- SUB (R81). -/
  | sub (a b : Reg) (c : Operand)
  /-- Signed multiply (R82, `u = 0`). -/
  | mul (a b : Reg) (c : Operand)
  /-- Unsigned multiply (R82, `u = 1`). -/
  | mulu (a b : Reg) (c : Operand)
  /-- Signed floor division (R83). -/
  | div (a b : Reg) (c : Operand)
  /-- Floating add, with the modes `u` (integer input) and `v` (integer output) (R87). -/
  | fad (a b : Reg) (u v : Bool) (c : Operand)
  /-- Floating subtract, with the modes of FAD (R89). -/
  | fsb (a b : Reg) (u v : Bool) (c : Operand)
  /-- Floating multiply (R91). -/
  | fml (a b : Reg) (c : Operand)
  /-- Floating divide (R92). -/
  | fdv (a b : Reg) (c : Operand)
  /-- Load word (R96). -/
  | ldw (a b : Reg) (off : BitVec 20)
  /-- Load byte (R97). -/
  | ldb (a b : Reg) (off : BitVec 20)
  /-- Store word (R98). -/
  | stw (a b : Reg) (off : BitVec 20)
  /-- Store byte (R99). -/
  | stb (a b : Reg) (off : BitVec 20)
  /-- `B<cc> Rc` (R105). -/
  | bReg (inv : Bool) (cond : Cond) (c : Reg)
  /-- `BL<cc> Rc` (R106). -/
  | blReg (inv : Bool) (cond : Cond) (c : Reg)
  /-- `B<cc> off` (R103). -/
  | bOff (inv : Bool) (cond : Cond) (off : BitVec 24)
  /-- `BL<cc> off` (R104). -/
  | blOff (inv : Bool) (cond : Cond) (off : BitVec 24)
  deriving DecidableEq, Repr

end Sys2Proof
end

