-- ==== Sys2Proof/WellFormed.lean ====
section
/-! DEFINITION. Which terms of `Instr` some instruction word stands for. -/

namespace Sys2Proof

/-- With `q = 1` one bit is both the immediate's fill and the mode `v` (R57, R65: "So with q = 1 one bit does both"). -/
def Operand.fillAgrees (v : Bool) : Operand → Bool
  | .reg _ => true
  | .imm fill _ => fill == v

/-- The check: every field has the width of its place in the word by its type, so the one thing left to check is
that FAD and FSB with an immediate take the mode `v` and the fill from one bit. -/
def Instr.wellFormed : Instr → Bool
  | .mov _ _ => true
  | .movu _ _ => true
  | .movf _ => true
  | .movh _ => true
  | .lsl _ _ _ => true
  | .asr _ _ _ => true
  | .ror _ _ _ => true
  | .and _ _ _ => true
  | .ann _ _ _ => true
  | .ior _ _ _ => true
  | .xor _ _ _ => true
  | .add _ _ _ => true
  | .sub _ _ _ => true
  | .mul _ _ _ => true
  | .mulu _ _ _ => true
  | .div _ _ _ => true
  | .fad _ _ _ v c => c.fillAgrees v
  | .fsb _ _ _ v c => c.fillAgrees v
  | .fml _ _ _ => true
  | .fdv _ _ _ => true
  | .ldw _ _ _ => true
  | .ldb _ _ _ => true
  | .stw _ _ _ => true
  | .stb _ _ _ => true
  | .bReg _ _ _ => true
  | .blReg _ _ _ => true
  | .bOff _ _ _ => true
  | .blOff _ _ _ => true

/-- `i` is the meaning of some instruction word. -/
abbrev Instr.WellFormed (i : Instr) : Prop := i.wellFormed = true

end Sys2Proof
end

