-- ==== Sys2Proof/Decode.lean ====
section
/-! DEFINITION. Instruction words to instructions and back (spec/30_encoding.md). -/

namespace Sys2Proof

/-! ### Fields of the instruction word -/

/-- The closed enumeration of the 4-bit `op` field (R59, R112). -/
inductive Opcode where
  | mov | lsl | asr | ror | and | ann | ior | xor | add | sub | mul | div | fad | fsb | fml | fdv
  deriving DecidableEq, Repr

/-- Register-format opcode numbers, read bit by bit from the most significant (R59). -/
def opcodeOfBits (op : BitVec 4) : Opcode :=
  match op.getLsbD 3, op.getLsbD 2, op.getLsbD 1, op.getLsbD 0 with
  | false, false, false, false => .mov
  | false, false, false, true => .lsl
  | false, false, true, false => .asr
  | false, false, true, true => .ror
  | false, true, false, false => .and
  | false, true, false, true => .ann
  | false, true, true, false => .ior
  | false, true, true, true => .xor
  | true, false, false, false => .add
  | true, false, false, true => .sub
  | true, false, true, false => .mul
  | true, false, true, true => .div
  | true, true, false, false => .fad
  | true, true, false, true => .fsb
  | true, true, true, false => .fml
  | true, true, true, true => .fdv

/-- The `op` field of an opcode (R59). -/
def opcodeBits : Opcode → BitVec 4
  | .mov => 0#4
  | .lsl => 1#4
  | .asr => 2#4
  | .ror => 3#4
  | .and => 4#4
  | .ann => 5#4
  | .ior => 6#4
  | .xor => 7#4
  | .add => 8#4
  | .sub => 9#4
  | .mul => 10#4
  | .div => 11#4
  | .fad => 12#4
  | .fsb => 13#4
  | .fml => 14#4
  | .fdv => 15#4

/-- The condition selector of its three bits (R63). -/
def condOfBits (cond : BitVec 3) : Cond :=
  match cond.getLsbD 2, cond.getLsbD 1, cond.getLsbD 0 with
  | false, false, false => .mi
  | false, false, true => .eq
  | false, true, false => .cs
  | false, true, true => .vs
  | true, false, false => .ls
  | true, false, true => .lt
  | true, true, false => .le
  | true, true, true => .always

/-- The three bits of a condition selector (R63). -/
def condBits : Cond → BitVec 3
  | .mi => 0#3
  | .eq => 1#3
  | .cs => 2#3
  | .vs => 3#3
  | .ls => 4#3
  | .lt => 5#3
  | .le => 6#3
  | .always => 7#3

/-- Bit 31: 0 in the register format (R55, R57). -/
def bitP (ir : Word) : Bool := ir.getLsbD 31
/-- Bit 30 (R56). -/
def bitQ (ir : Word) : Bool := ir.getLsbD 30
/-- Bit 29 (R56). -/
def bitU (ir : Word) : Bool := ir.getLsbD 29
/-- Bit 28 (R56). -/
def bitV (ir : Word) : Bool := ir.getLsbD 28
/-- Bits 27:24: destination, or source of a store (R57, R61). -/
def fieldA (ir : Word) : Reg := ir.extractLsb' 24 4
/-- Bits 23:20: first source, or base (R57, R61). -/
def fieldB (ir : Word) : Reg := ir.extractLsb' 20 4
/-- Bits 19:16 (R57). -/
def fieldOp (ir : Word) : BitVec 4 := ir.extractLsb' 16 4
/-- Bits 15:0 (R57). -/
def fieldImm (ir : Word) : BitVec 16 := ir.extractLsb' 0 16
/-- Bits 3:0 (R57, R62). -/
def fieldC (ir : Word) : Reg := ir.extractLsb' 0 4
/-- Bits 19:0: the memory offset (R61). -/
def fieldOff20 (ir : Word) : BitVec 20 := ir.extractLsb' 0 20
/-- Bit 27: inverts the condition (R62). -/
def bitInv (ir : Word) : Bool := ir.getLsbD 27
/-- Bits 26:24: the condition selector (R62). -/
def fieldCond (ir : Word) : BitVec 3 := ir.extractLsb' 24 3
/-- Bits 23:0: the branch offset (R62). -/
def fieldOff24 (ir : Word) : BitVec 24 := ir.extractLsb' 0 24

/-! ### Decoding -/

/-- The second operand named by `q`, `v`, `imm` and `c` (R58). -/
def operandOf (ir : Word) : Operand :=
  if bitQ ir then .imm (bitV ir) (fieldImm ir) else .reg (fieldC ir)

/-- MOV's four modes (R60). -/
def decodeMov (ir : Word) : Instr :=
  match bitU ir, bitQ ir, bitV ir with
  | false, _, _ => .mov (fieldA ir) (operandOf ir)
  | true, true, _ => .movu (fieldA ir) (fieldImm ir)
  | true, false, true => .movf (fieldA ir)
  | true, false, false => .movh (fieldA ir)

/-- A register-format word (R57, R59). -/
def decodeRegister (ir : Word) : Instr :=
  match opcodeOfBits (fieldOp ir) with
  | .mov => decodeMov ir
  | .lsl => .lsl (fieldA ir) (fieldB ir) (operandOf ir)
  | .asr => .asr (fieldA ir) (fieldB ir) (operandOf ir)
  | .ror => .ror (fieldA ir) (fieldB ir) (operandOf ir)
  | .and => .and (fieldA ir) (fieldB ir) (operandOf ir)
  | .ann => .ann (fieldA ir) (fieldB ir) (operandOf ir)
  | .ior => .ior (fieldA ir) (fieldB ir) (operandOf ir)
  | .xor => .xor (fieldA ir) (fieldB ir) (operandOf ir)
  | .add => .add (fieldA ir) (fieldB ir) (operandOf ir)
  | .sub => .sub (fieldA ir) (fieldB ir) (operandOf ir)
  | .mul => if bitU ir then .mulu (fieldA ir) (fieldB ir) (operandOf ir) else .mul (fieldA ir) (fieldB ir) (operandOf ir)
  | .div => .div (fieldA ir) (fieldB ir) (operandOf ir)
  | .fad => .fad (fieldA ir) (fieldB ir) (bitU ir) (bitV ir) (operandOf ir)
  | .fsb => .fsb (fieldA ir) (fieldB ir) (bitU ir) (bitV ir) (operandOf ir)
  | .fml => .fml (fieldA ir) (fieldB ir) (operandOf ir)
  | .fdv => .fdv (fieldA ir) (fieldB ir) (operandOf ir)

/-- A memory-format word: `u` chooses load (0) or store (1), `v` word (0) or byte (1) (R61). -/
def decodeMemory (ir : Word) : Instr :=
  match bitU ir, bitV ir with
  | false, false => .ldw (fieldA ir) (fieldB ir) (fieldOff20 ir)
  | false, true => .ldb (fieldA ir) (fieldB ir) (fieldOff20 ir)
  | true, false => .stw (fieldA ir) (fieldB ir) (fieldOff20 ir)
  | true, true => .stb (fieldA ir) (fieldB ir) (fieldOff20 ir)

/-- A branch-format word: `u` chooses register (0) or PC-relative (1), `v` no link (0) or link (1) (R62). -/
def decodeBranch (ir : Word) : Instr :=
  match bitU ir, bitV ir with
  | false, false => .bReg (bitInv ir) (condOfBits (fieldCond ir)) (fieldC ir)
  | false, true => .blReg (bitInv ir) (condOfBits (fieldCond ir)) (fieldC ir)
  | true, false => .bOff (bitInv ir) (condOfBits (fieldCond ir)) (fieldOff24 ir)
  | true, true => .blOff (bitInv ir) (condOfBits (fieldCond ir)) (fieldOff24 ir)

/-- Every 32-bit word decodes to exactly one instruction (R64); bits 31:30 select the format (R55). -/
def decodeWord (ir : Word) : Instr :=
  match bitP ir, bitQ ir with
  | false, _ => decodeRegister ir
  | true, false => decodeMemory ir
  | true, true => decodeBranch ir

/-- Why bytes are no instruction: an instruction is four bytes (R54), and fewer are left. -/
inductive DecodeError where
  | truncated (bytesLeft : Nat)
  deriving DecidableEq, Repr

/-- The word of four bytes in memory order, the first the least significant (R40). -/
def wordOfBytes (b0 b1 b2 b3 : Byte) : Word := b3 ++ b2 ++ b1 ++ b0

/-- The four bytes of a word in memory order (R40). -/
def bytesOfWord (w : Word) : List Byte :=
  [w.extractLsb' 0 8, w.extractLsb' 8 8, w.extractLsb' 16 8, w.extractLsb' 24 8]

/-- The first instruction of a list of bytes and the bytes after it (R54). Words stand in memory as R40 lays them
out, the least significant byte first; DEDUCED, notes/assumptions/9.md. -/
def decode : List Byte → Except DecodeError (Instr × List Byte)
  | b0 :: b1 :: b2 :: b3 :: rest => .ok (decodeWord (wordOfBytes b0 b1 b2 b3), rest)
  | short => .error (.truncated short.length)

/-! ### Encoding -/

/-- A register-format word from its fields (R57). -/
def registerWord (q u v : Bool) (a b : Reg) (op : Opcode) (low : BitVec 16) : Word :=
  0#1 ++ BitVec.ofBool q ++ BitVec.ofBool u ++ BitVec.ofBool v ++ a ++ b ++ opcodeBits op ++ low

/-- A memory-format word from its fields (R61). -/
def memoryWord (u v : Bool) (a b : Reg) (off : BitVec 20) : Word :=
  2#2 ++ BitVec.ofBool u ++ BitVec.ofBool v ++ a ++ b ++ off

/-- A branch-format word from its fields (R62). -/
def branchWord (u v inv : Bool) (cond : Cond) (low : BitVec 24) : Word :=
  3#2 ++ BitVec.ofBool u ++ BitVec.ofBool v ++ BitVec.ofBool inv ++ condBits cond ++ low

/-- `q` of an operand (R58). -/
def operandQ : Operand → Bool
  | .reg _ => false
  | .imm _ _ => true

/-- `v` of an operand: an immediate's fill; 0 where nothing reads it (R65). -/
def operandV : Operand → Bool
  | .reg _ => false
  | .imm fill _ => fill

/-- Bits 15:0 of an operand; bits 15:4 are 0 for a register (R65). -/
def operandLow : Operand → BitVec 16
  | .reg c => 0#12 ++ c
  | .imm _ value => value

/-- A register-format word whose `v` is the operand's fill, or ignored (R65). -/
def plainWord (u : Bool) (a b : Reg) (op : Opcode) (c : Operand) : Word :=
  registerWord (operandQ c) u (operandV c) a b op (operandLow c)

/-- The word of an instruction, every ignored bit 0 (R65, R66). -/
def encode : Instr → Word
  | .mov a c => plainWord false a 0#4 .mov c
  | .movu a value => registerWord true true false a 0#4 .mov value
  | .movf a => registerWord false true true a 0#4 .mov 0#16
  | .movh a => registerWord false true false a 0#4 .mov 0#16
  | .lsl a b c => plainWord false a b .lsl c
  | .asr a b c => plainWord false a b .asr c
  | .ror a b c => plainWord false a b .ror c
  | .and a b c => plainWord false a b .and c
  | .ann a b c => plainWord false a b .ann c
  | .ior a b c => plainWord false a b .ior c
  | .xor a b c => plainWord false a b .xor c
  | .add a b c => plainWord false a b .add c
  | .sub a b c => plainWord false a b .sub c
  | .mul a b c => plainWord false a b .mul c
  | .mulu a b c => plainWord true a b .mul c
  | .div a b c => plainWord false a b .div c
  | .fad a b u v c => registerWord (operandQ c) u v a b .fad (operandLow c)
  | .fsb a b u v c => registerWord (operandQ c) u v a b .fsb (operandLow c)
  | .fml a b c => plainWord false a b .fml c
  | .fdv a b c => plainWord false a b .fdv c
  | .ldw a b off => memoryWord false false a b off
  | .ldb a b off => memoryWord false true a b off
  | .stw a b off => memoryWord true false a b off
  | .stb a b off => memoryWord true true a b off
  | .bReg inv cond c => branchWord false false inv cond (0#20 ++ c)
  | .blReg inv cond c => branchWord false true inv cond (0#20 ++ c)
  | .bOff inv cond off => branchWord true false inv cond off
  | .blOff inv cond off => branchWord true true inv cond off

/-- The bytes of an instruction in memory order. -/
def encodeBytes (i : Instr) : List Byte := bytesOfWord (encode i)

/-! ### Pseudo-instructions (R67) -/

/-- `NOP`: the branch that is never taken. -/
def nopInstr : Instr := .bReg true .always 0#4

/-- `RET`: a branch to the link register. -/
def retInstr : Instr := .bReg false .always 15#4

/-- `LDI Ra, #k`: one MOV where the high half is zeros or ones, else MOVU and IOR. -/
def ldiInstrs (a : Reg) (k : Word) : List Instr :=
  if k.extractLsb' 16 16 = 0#16 then [.mov a (.imm false (k.extractLsb' 0 16))]
  else if k.extractLsb' 16 16 = 0xFFFF#16 then [.mov a (.imm true (k.extractLsb' 0 16))]
  else [.movu a (k.extractLsb' 16 16), .ior a a (.imm false (k.extractLsb' 0 16))]

/-! ### The table's words -/

/-- The word `w` of a table row of `nbits` bits, bit 0 the least significant; bits above `nbits` are 0. -/
def tableWord (nbits w : Nat) : Word := BitVec.ofNat 32 (w % 2 ^ nbits)

/-- The instruction the decoder reads from a table row's word, laid out in memory order. -/
def decodeTableWord (nbits w : Nat) : Option Instr :=
  match decode (bytesOfWord (tableWord nbits w)) with
  | .ok (i, _) => some i
  | .error _ => none

end Sys2Proof
end

