-- ==== Sys2Proof/Machine/Flags.lean ====
section
/-! DEFINITION. Every flag computation of the spec, as functions of words and flags. -/

namespace Sys2Proof.Machine

/-- `Z` of a value written to a register (R15). -/
def zeroFlag (v : Word) : Bool := v == 0#32

/-- `N` of a value written to a register: bit 31 (R15). -/
def negativeFlag (v : Word) : Bool := v.getLsbD 31

/-- `C` of ADD: the wrapped sum `r` is below the addend `b` (R80). -/
def addCarry (b r : Word) : Bool := r.ult b

/-- `V` of ADD: operands of one sign, result of the other (R80). -/
def addOverflow (b c r : Word) : Bool := ((r ^^^ b) &&& (r ^^^ c)).getLsbD 31

/-- `C` of SUB, a borrow: the wrapped difference `r` exceeds the minuend `b` (R81). -/
def subBorrow (b r : Word) : Bool := b.ult r

/-- `V` of SUB: operands of different sign, the result's sign differs from the minuend's (R81). -/
def subOverflow (b c r : Word) : Bool := ((b ^^^ c) &&& (r ^^^ b)).getLsbD 31

/-- The packed flags word: `N` at bit 31, `Z` at 30, `C` at 29, `V` at 28, the tag below (R24). -/
def packFlags (n z c v : Bool) (tag : BitVec 28) : Word :=
  BitVec.ofBool n ++ BitVec.ofBool z ++ BitVec.ofBool c ++ BitVec.ofBool v ++ tag

/-- The condition a selector names, before inversion (R63, R100). -/
def condTest (n z c v : Bool) : Cond → Bool
  | .mi => n
  | .eq => z
  | .cs => c
  | .vs => v
  | .ls => c || z
  | .lt => n != v
  | .le => (n != v) || z
  | .always => true

end Sys2Proof.Machine
end

