-- ==== Sys2Proof/Config.lean ====
section
/-! DEFINITION. What one machine instance fixes (spec/00_scope.md R6) and the words the outside world chooses
(spec/60_exceptions.md R131). -/

namespace Sys2Proof.Config

/-- The implementation parameters of R6, `ROM_IMAGE` apart (the image is the content of `State.rom`).
They are constants of a machine instance: no step changes them. -/
structure Params where
  /-- `MEM_SIZE`: RAM covers byte addresses `[0, memSize)`. -/
  memSize : Nat
  /-- `ROM_START`: byte address of ROM word 0. -/
  romStart : Nat
  /-- `ROM_WORDS`: number of ROM words. -/
  romWords : Nat
  /-- `IO_START`: first byte address of the MMIO window `[ioStart, 2^32)`. -/
  ioStart : Nat
  /-- `DISPLAY_START`: byte address of framebuffer word (row 0, column 0). -/
  displayStart : Nat
  /-- `FB_WIDTH_WORDS`: words per framebuffer row. -/
  fbWidth : Nat
  /-- `FB_HEIGHT`: framebuffer rows. -/
  fbHeight : Nat
  /-- `FLAGS_TAG`: bits 27:0 of the packed flags word. -/
  flagsTag : BitVec 28
  /-- `PROGRESS_INIT`: value the progress counter takes at the start of each `run`. -/
  progressInit : Nat
  /-- `KEY_QUEUE_CAP`: capacity of the keyboard byte queue. -/
  keyQueueCap : Nat
  deriving DecidableEq, Repr

/-- The constraint column of R6. -/
abbrev Params.wf (p : Params) : Prop :=
  (p.memSize % 4 = 0 ∧ 0 < p.memSize ∧ p.memSize ≤ p.romStart) ∧
  (p.romStart % 4 = 0 ∧ p.romStart + 4 * p.romWords ≤ 2 ^ 32) ∧
  (p.ioStart % 4 = 0 ∧ p.memSize ≤ p.ioStart) ∧
  (p.displayStart % 4 = 0 ∧ p.displayStart < p.memSize) ∧
  1 ≤ p.fbWidth ∧ 1 ≤ p.fbHeight ∧ 1 ≤ p.progressInit ∧ 1 ≤ p.keyQueueCap

/-- The default column of R6. PRESUMED (the spec marks it general knowledge), unsafe where a statement rests on one
of these values; notes/assumptions/1.md. -/
def defaultParams : Params where
  memSize := 0x00100000
  romStart := 0xFFFFF800
  romWords := 512
  ioStart := 0xFFFFFFC0
  displayStart := 0x000E7F00
  fbWidth := 32
  fbHeight := 768
  flagsTag := 0xD0#28
  progressInit := 20
  keyQueueCap := 16

/-- One method pair of an external device (R131): what a read asks of, or a write delivers to. -/
inductive DevicePort where
  /-- `serial.readData`, `serial.writeData`. -/
  | serialData
  /-- `serial.readStatus`. -/
  | serialStatus
  /-- `spi[slot].readData`, `spi[slot].writeData`. -/
  | spiData (slot : BitVec 2)
  /-- `clipboard.readControl`, `clipboard.writeControl`. -/
  | clipboardControl
  /-- `clipboard.readData`, `clipboard.writeData`. -/
  | clipboardData
  deriving DecidableEq, Repr

/-- One call made to an attached device (R131), as the environment sees it. -/
inductive DeviceCall where
  /-- A read method of `port`, which answered `answer`. -/
  | read (port : DevicePort) (answer : Word)
  /-- A write method of `port`, which received `value`. -/
  | write (port : DevicePort) (value : Word)
  deriving DecidableEq, Repr

/-- FREE VALUE (R131: "A read returns an arbitrary word chosen by the environment"). The word an attached device
answers, given the port, the calls made so far and the number of the read. It has no body: no proof can depend on
which word it is. DESIGN CHOICE of form, safe; notes/assumptions/4.md. -/
opaque deviceAnswer : DevicePort → List DeviceCall → Nat → Word

end Sys2Proof.Config
end

