-- ==== Sys2Proof/Machine/State.lean ====
section
/-! DEFINITION. The state of one goberan CORE machine instance (spec/10_state.md), as plain data. -/

namespace Sys2Proof.Machine

/-- A word array held as bytes at their byte addresses (R26, R27), sparse: an address that is not listed holds
`unlistedByte`. -/
abbrev Memory := List Host.Cell

/-- What an unlisted address reads as: every RAM word is 0 at construction (R32). -/
def unlistedByte : Byte := 0#8

/-- The one form a memory is written in: addresses strictly rising, no entry that an unlisted address reads as. -/
abbrev Memory.wf (m : Memory) : Prop :=
  m.Pairwise (fun p q => p.1 < q.1) ∧ ∀ p ∈ m, p.2 ≠ unlistedByte

/-- The damage rectangle (R28): `x1`, `x2` are word columns, `y1`, `y2` rows of the framebuffer. -/
structure Rect where
  x1 : Nat
  y1 : Nat
  x2 : Nat
  y2 : Nat
  deriving DecidableEq, Repr

/-- One diagnostic record (R109, R113). -/
inductive LogEvent where
  /-- Code 1: a DIV at word index `index` found the divisor `divisor`, which is not positive (R110). -/
  | divNonPositive (index : Word) (divisor : Word)
  /-- Code 2: the fetch at word index `pc` reached neither RAM nor ROM (R111). -/
  | invalidFetch (pc : Word)
  deriving DecidableEq, Repr

/-- The state of one machine instance. -/
structure State where
  /-- The parameters of the instance (R6); no step changes them; notes/assumptions/1.md. -/
  params : Config.Params
  /-- The general registers `x[0..15]` (R13). -/
  regs : Vector Word 16
  /-- The program counter, a word index (R16). -/
  pc : Word
  /-- The auxiliary register `H` (R19). -/
  h : Word
  /-- Negative (R20). -/
  flagN : Bool
  /-- Zero (R20). -/
  flagZ : Bool
  /-- Carry (R20). -/
  flagC : Bool
  /-- Overflow (R20). -/
  flagV : Bool
  /-- The array `ram`, by byte address (R26). -/
  ram : Memory
  /-- The array `rom`, by byte address (R27). -/
  rom : Memory
  /-- The damage rectangle (R28). -/
  damage : Rect
  /-- The progress counter (R29). -/
  progress : Int
  /-- Millisecond time, set by the host (R30, R123). -/
  timer : Word
  /-- The switches, set by the host (R30, R124). -/
  switches : Word
  /-- The LEDs, read by the host (R30, R124). -/
  leds : Word
  /-- Mouse position and buttons, set by the host (R30, R127). -/
  mouse : Word
  /-- The keyboard queue, oldest byte first (R30, R128). -/
  keys : List Byte
  /-- The selected SPI slot (R30, R126). -/
  spiSelected : BitVec 2
  /-- Whether a serial device is attached (R30, R133). -/
  serialAttached : Bool
  /-- Which SPI slots have a device attached (R30, R126, R133). -/
  spiAttached : Vector Bool 4
  /-- Whether a clipboard is attached (R30, R133). -/
  clipboardAttached : Bool
  /-- The MODEL's own field: the calls made to attached devices, newest first (R131); notes/assumptions/5.md. -/
  deviceCalls : List Config.DeviceCall
  /-- The MODEL's own field: the number of the next device answer, a free value; notes/assumptions/4.md. -/
  deviceTick : Nat
  /-- The MODEL's own field: the diagnostics emitted, newest first (R113); notes/assumptions/6.md. -/
  log : List LogEvent
  deriving DecidableEq, Repr

/-- The faults of a step. -/
inductive Fault where
  /-- The "Fatal" category, code 3 of R109 (R112): the decoder found no instruction in the fetched word `ir`, and
  the process aborts. Raised by `step` alone; safe; no state raises it, since every word decodes (R64). -/
  | fatal (ir : Word)
  deriving DecidableEq, Repr

/-- The refusals of a step. -/
inductive Refusal where
  /-- An instruction without a meaning. Raised by `exec`'s refused arms alone, of which there is none; safe. -/
  | notModelled (mnemonic : String)
  deriving DecidableEq, Repr

/-- ROM base as a word index (R32, R134). -/
def romBaseIndex (p : Config.Params) : Word := BitVec.ofNat 32 (p.romStart / 4)

/-- The machine right after construction (R32, R133), with the default parameters, a ROM image of zeros and no
device attached (notes/assumptions/1.md, 2.md, 3.md). -/
def State.reset : State where
  params := Config.defaultParams
  regs := Vector.replicate 16 0#32
  pc := romBaseIndex Config.defaultParams
  h := 0#32
  flagN := false
  flagZ := false
  flagC := false
  flagV := false
  ram := []
  rom := []
  damage := ⟨0, 0, 31, 767⟩
  progress := 20
  timer := 0#32
  switches := 0#32
  leds := 0#32
  mouse := 0#32
  keys := []
  spiSelected := 0#2
  serialAttached := false
  spiAttached := Vector.replicate 4 false
  clipboardAttached := false
  deviceCalls := []
  deviceTick := 0
  log := []

end Sys2Proof.Machine
end

