-- ==== Sys2Proof/Machine/Ops.lean ====
section
/-! DEFINITION. The named operations over memory, registers and events that every meaning is written with. -/

namespace Sys2Proof.Machine

/-! ### Memory (R26, R27, R40) -/

/-- The byte at an address. -/
def Memory.read : Memory → Nat → Byte
  | [], _ => unlistedByte
  | (k, b) :: m, a => if k = a then b else Memory.read m a

/-- Writes one byte and keeps the canonical form: the byte an unlisted address reads as is not listed. -/
def Memory.write : Memory → Nat → Byte → Memory
  | [], a, v => if v = unlistedByte then [] else [(a, v)]
  | (k, b) :: m, a, v =>
    if a < k then (if v = unlistedByte then (k, b) :: m else (a, v) :: (k, b) :: m)
    else if a = k then (if v = unlistedByte then m else (a, v) :: m)
    else (k, b) :: Memory.write m a v

/-- The little-endian word whose bytes stand at `base` to `base + 3` (R26, R40). -/
def Memory.readWord (m : Memory) (base : Nat) : Word :=
  m.read (base + 3) ++ m.read (base + 2) ++ m.read (base + 1) ++ m.read base

/-- Stores a word at `base` to `base + 3`, little-endian (R26, R40). -/
def Memory.writeWord (m : Memory) (base : Nat) (v : Word) : Memory :=
  (((m.write base (v.extractLsb' 0 8)).write (base + 1) (v.extractLsb' 8 8)).write (base + 2)
    (v.extractLsb' 16 8)).write (base + 3) (v.extractLsb' 24 8)

/-- The byte address of the aligned word that holds byte address `a`: bits 1:0 are ignored (R41). -/
def wordBase (a : Word) : Nat := 4 * (a.toNat / 4)

/-! ### Registers -/

/-- Reads `x[i]` (R13). -/
def State.reg (s : State) (i : Reg) : Word := s.regs[i.toNat]'i.isLt

/-- The register write path `x[i] <- v`, which also sets `Z` and `N` (R15). No meaning writes a register any other
way. -/
def State.writeReg (s : State) (i : Reg) (v : Word) : State :=
  { s with regs := s.regs.set i.toNat v i.isLt, flagZ := zeroFlag v, flagN := negativeFlag v }

/-- Writes `H`; no flag changes (R19). -/
def State.setH (s : State) (v : Word) : State := { s with h := v }

/-- Writes `C` and `V` (R22). -/
def State.setCV (s : State) (c v : Bool) : State := { s with flagC := c, flagV := v }

/-- Sets the program counter (R16, R18). -/
def State.setPc (s : State) (t : Word) : State := { s with pc := t }

/-- The packed flags word of the state (R24). -/
def State.flagsWord (s : State) : Word := packFlags s.flagN s.flagZ s.flagC s.flagV s.params.flagsTag

/-! ### Events and reset -/

/-- Emits a diagnostic record; no architectural state changes (R113). -/
def State.emit (s : State) (e : LogEvent) : State := { s with log := e :: s.log }

/-- The numeric code of a diagnostic record (R109). -/
def eventCode : LogEvent → Nat
  | .divNonPositive _ _ => 1
  | .invalidFetch _ => 2

/-- The operation `reset()`: the pc goes to the ROM base and nothing else changes (R134). -/
def State.resetPc (s : State) : State := s.setPc (romBaseIndex s.params)

/-- Taking the one state-changing event of the machine, an invalid fetch: log the offending index, then `reset()`
(R111). There is no trap to take or to return from (R108). -/
def State.takeInvalidFetch (s : State) : State := (s.emit (.invalidFetch s.pc)).resetPc

/-! ### Fetch -/

/-- Whether a word index is in RAM (R35). -/
def inRamIndex (p : Config.Params) (k : Nat) : Bool := decide (k < p.memSize / 4)

/-- Whether a word index is in ROM (R35). -/
def inRomIndex (p : Config.Params) (k : Nat) : Bool :=
  decide (p.romStart / 4 ≤ k ∧ k < p.romStart / 4 + p.romWords)

/-- `Fetch(pc)`: the instruction word at word index `pc`, from RAM or ROM and never MMIO; `none` is `InvalidFetch`
(R35). -/
def State.fetch (s : State) : Option Word :=
  if inRamIndex s.params s.pc.toNat then some (s.ram.readWord (4 * s.pc.toNat))
  else if inRomIndex s.params s.pc.toNat then some (s.rom.readWord (4 * s.pc.toNat))
  else none

end Sys2Proof.Machine
end

