-- ==== Sys2Proof/Machine/Operands.lean ====
section
/-! DEFINITION. How the operands of each format are assembled (spec/30_encoding.md, 42_load_store.md, 43_branch.md). -/

namespace Sys2Proof.Machine

/-- A register-format immediate: high half zeros, or ones when `fill` is set, whatever its bit 15 is (R58, R10). -/
def immediateValue (fill : Bool) (value : BitVec 16) : Word :=
  (if fill then 0xFFFF#16 else 0#16) ++ value

/-- The second operand `c_val` (R58). -/
def State.operand (s : State) : Operand → Word
  | .reg c => s.reg c
  | .imm fill value => immediateValue fill value

/-- A shift amount: bits 4:0 of `c_val` (R73, R74, R75). -/
def shiftAmount (c : Word) : Nat := (c.extractLsb' 0 5).toNat

/-- The effective address of a memory-format instruction: `mod32(x[b] + sext_20(off))` (R94). -/
def State.effectiveAddress (s : State) (b : Reg) (off : BitVec 20) : Word :=
  s.reg b + off.signExtend 32

/-- Whether a branch is taken, from the flags before it executes (R100). -/
def State.takes (s : State) (inv : Bool) (cond : Cond) : Bool :=
  (condTest s.flagN s.flagZ s.flagC s.flagV cond).xor inv

/-- The PC-relative target, from the incremented pc (R103). -/
def State.relativeTarget (s : State) (off : BitVec 24) : Word := s.pc + off.signExtend 32

/-- The register target: the register's byte address as a word index (R105). -/
def State.registerTarget (s : State) (c : Reg) : Word := s.reg c >>> 2

/-- The link value: the return address as a byte address (R101). -/
def State.linkValue (s : State) : Word := s.pc * 4#32

/-- The link register of the linking branches (R101). -/
def linkReg : Reg := 15#4

end Sys2Proof.Machine
end

