-- ==== Sys2Proof/Machine/Alu.lean ====
section
/-! DEFINITION. The meanings of the integer register-format instructions (spec/40_integer_alu.md). All operand reads
happen before the write (R68). -/

namespace Sys2Proof.Machine

/-! ### MOV (op 0) -/

/-- MOV, passthrough (R69). -/
def execMov (a : Reg) (c : Operand) (s : State) : Host.Outcome State Fault Refusal :=
  .next (s.writeReg a (s.operand c))

/-- MOVU: the immediate in the high half (R70); the fill bits are shifted out. -/
def execMovu (a : Reg) (value : BitVec 16) (s : State) : Host.Outcome State Fault Refusal :=
  .next (s.writeReg a (immediateValue false value <<< 16))

/-- MOVF: the packed flags word, from the flags before this instruction's write (R71). -/
def execMovf (a : Reg) (s : State) : Host.Outcome State Fault Refusal :=
  .next (s.writeReg a s.flagsWord)

/-- MOVH: the auxiliary register (R72). -/
def execMovh (a : Reg) (s : State) : Host.Outcome State Fault Refusal :=
  .next (s.writeReg a s.h)

/-! ### Shifts (op 1 to 3) -/

/-- LSL (R73). -/
def execLsl (a b : Reg) (c : Operand) (s : State) : Host.Outcome State Fault Refusal :=
  .next (s.writeReg a (s.reg b <<< shiftAmount (s.operand c)))

/-- ASR (R74). -/
def execAsr (a b : Reg) (c : Operand) (s : State) : Host.Outcome State Fault Refusal :=
  .next (s.writeReg a ((s.reg b).sshiftRight (shiftAmount (s.operand c))))

/-- A word rotated right by `n`, in the form R75 gives it. -/
def rotateRightBy (b : Word) (n : Nat) : Word := (b >>> n) ||| (b <<< ((32 - n) % 32))

/-- ROR (R75). -/
def execRor (a b : Reg) (c : Operand) (s : State) : Host.Outcome State Fault Refusal :=
  .next (s.writeReg a (rotateRightBy (s.reg b) (shiftAmount (s.operand c))))

/-! ### Logic (op 4 to 7) -/

/-- AND (R76). -/
def execAnd (a b : Reg) (c : Operand) (s : State) : Host.Outcome State Fault Refusal :=
  .next (s.writeReg a (s.reg b &&& s.operand c))

/-- ANN (R77). -/
def execAnn (a b : Reg) (c : Operand) (s : State) : Host.Outcome State Fault Refusal :=
  .next (s.writeReg a (s.reg b &&& ~~~s.operand c))

/-- IOR (R78). -/
def execIor (a b : Reg) (c : Operand) (s : State) : Host.Outcome State Fault Refusal :=
  .next (s.writeReg a (s.reg b ||| s.operand c))

/-- XOR (R79). -/
def execXor (a b : Reg) (c : Operand) (s : State) : Host.Outcome State Fault Refusal :=
  .next (s.writeReg a (s.reg b ^^^ s.operand c))

/-! ### Add and subtract (op 8, 9) -/

/-- ADD; no carry input (R80, D17; the opcode table's note differs: notes/assumptions/8.md). -/
def execAdd (a b : Reg) (c : Operand) (s : State) : Host.Outcome State Fault Refusal :=
  let bv := s.reg b
  let cv := s.operand c
  let r := bv + cv
  .next ((s.setCV (addCarry bv r) (addOverflow bv cv r)).writeReg a r)

/-- SUB; no borrow input (R81, D17; the opcode table's note differs: notes/assumptions/8.md). -/
def execSub (a b : Reg) (c : Operand) (s : State) : Host.Outcome State Fault Refusal :=
  let bv := s.reg b
  let cv := s.operand c
  let r := bv - cv
  .next ((s.setCV (subBorrow bv r) (subOverflow bv cv r)).writeReg a r)

/-! ### Multiply and divide (op 10, 11) -/

/-- Writes the two halves of a 64-bit product: `H` first, then the destination (R82). -/
def State.writeProduct (s : State) (a : Reg) (t : BitVec 64) : State :=
  (s.setH (t.extractLsb' 32 32)).writeReg a (t.extractLsb' 0 32)

/-- MUL, signed (R82). -/
def execMul (a b : Reg) (c : Operand) (s : State) : Host.Outcome State Fault Refusal :=
  .next (s.writeProduct a (BitVec.ofInt 64 ((s.reg b).toInt * (s.operand c).toInt)))

/-- MULU, unsigned (R82). -/
def execMulu (a b : Reg) (c : Operand) (s : State) : Host.Outcome State Fault Refusal :=
  .next (s.writeProduct a (BitVec.ofNat 64 ((s.reg b).toNat * (s.operand c).toNat)))

/-- Quotient and remainder for a positive divisor, corrected from truncation to floor (R83). -/
def floorDivision (n d : Int) : Int × Int :=
  let q := n.tdiv d
  let r := n.tmod d
  if r < 0 then (q - 1, r + d) else (q, r)

/-- DIV, signed floor division; a divisor that is not positive is logged and changes nothing else (R83, R110). The
pc has already been incremented, so the DIV's own index is `pc - 1`. -/
def execDiv (a b : Reg) (c : Operand) (s : State) : Host.Outcome State Fault Refusal :=
  if (s.operand c).toInt ≤ 0 then .next (s.emit (.divNonPositive (s.pc - 1#32) (s.operand c)))
  else
    let qr := floorDivision (s.reg b).toInt (s.operand c).toInt
    .next ((s.setH (BitVec.ofInt 32 qr.2)).writeReg a (BitVec.ofInt 32 qr.1))

end Sys2Proof.Machine
end

