-- ==== Sys2Proof/Machine/Branch.lean ====
section
/-! DEFINITION. The meanings of the branches (spec/43_branch.md). The pc already holds the index of the next word; a
branch that is not taken changes nothing (R100). -/

namespace Sys2Proof.Machine

/-- The link write of a taken linking branch, through the write path (R101). -/
def State.writeLink (s : State) : State := s.writeReg linkReg s.linkValue

/-- B<cc> off (R103). -/
def execBOff (inv : Bool) (cond : Cond) (off : BitVec 24) (s : State) : Host.Outcome State Fault Refusal :=
  .next (if s.takes inv cond then s.setPc (s.relativeTarget off) else s)

/-- BL<cc> off: the link, then the target (R104, R101). -/
def execBlOff (inv : Bool) (cond : Cond) (off : BitVec 24) (s : State) : Host.Outcome State Fault Refusal :=
  .next (if s.takes inv cond then s.writeLink.setPc (s.writeLink.relativeTarget off) else s)

/-- B<cc> Rc (R105). -/
def execBReg (inv : Bool) (cond : Cond) (c : Reg) (s : State) : Host.Outcome State Fault Refusal :=
  .next (if s.takes inv cond then s.setPc (s.registerTarget c) else s)

/-- BL<cc> Rc: the target register is read after the link write (R106, R101). -/
def execBlReg (inv : Bool) (cond : Cond) (c : Reg) (s : State) : Host.Outcome State Fault Refusal :=
  .next (if s.takes inv cond then s.writeLink.setPc (s.writeLink.registerTarget c) else s)

end Sys2Proof.Machine
end

