-- ==== Sys2Proof/Machine/Float.lean ====
section
/-! DEFINITION. The floating-point datapaths, bit-exact and not IEEE 754 (spec/41_float.md). Intermediate quantities
are mathematical integers; `/` and `%` on `Int` with a positive divisor are floor division and its remainder. -/

namespace Sys2Proof.Machine

/-! ### The format (R85) -/

/-- Biased exponent `w[30:23]`. -/
def floatExp (w : Word) : Nat := (w.extractLsb' 23 8).toNat

/-- Fraction `w[22:0]`. -/
def floatFrac (w : Word) : Nat := (w.extractLsb' 0 23).toNat

/-- Sign `w[31]`. -/
def floatSign (w : Word) : Bool := w.getLsbD 31

/-- "Zero" to the adder's short-circuits: `w[30:0] = 0`, whatever the sign. -/
def floatIsZero (w : Word) : Bool := w.extractLsb' 0 31 == 0#31

/-- `m` or `-m`. -/
def signedMag (neg : Bool) (m : Nat) : Int := if neg then -(m : Int) else m

/-! ### The adder (R87), step by step -/

/-- Step 1, `xe`: 150 for an integer left operand. -/
def fadExpX (u : Bool) (x : Word) : Nat := if u then 150 else floatExp x

/-- Step 1, `x0`: the 25-bit extended mantissa, or with `u` the 24-bit integer `x[23:0]` doubled. -/
def fadMantX (u : Bool) (x : Word) : Int :=
  if u then (x.extractLsb' 0 24).toInt * 2
  else signedMag (floatSign x) (2 ^ 24 + floatFrac x * 2)

/-- Step 2, `y0`: its implicit 1 is omitted in either conversion mode. -/
def fadMantY (u v : Bool) (y : Word) : Int :=
  signedMag (floatSign y) (floatFrac y * 2 + if !u && !v then 2 ^ 24 else 0)

/-- Step 3: an arithmetic right shift by an exponent difference, clamped at 31. -/
def fadAlign (m : Int) (d : Nat) : Int := m / ((2 ^ min d 31 : Nat) : Int)

/-- Step 4: bits 24:0 of an aligned mantissa with the operand's sign injected into bits 26 and 25. -/
def fadTerm (neg : Bool) (m : Int) : Nat :=
  (if neg then 2 ^ 26 + 2 ^ 25 else 0) + (m % 2 ^ 25).toNat

/-- Steps 1 to 4: the working sum. The operand with the smaller exponent is shifted; the other difference is 0 in
natural-number subtraction. In FLT and FLOOR the sign of `y` is injected although its implicit 1 is omitted, so the
constant 0xCB000000 does not convert as 0x4B000000 does: FAD.U of 5 gives 0xCB7FFFFB and FAD.V of 2.5 gives 0xFF000002.
R88 remarks that any `y` with exponent field 150 and fraction 0 gives the same result; R87's pseudocode is followed.
DEDUCED, unsafe for a claim about FLT or FLOOR with 0xCB000000; notes/assumptions/13.md. -/
def fadSum (u v : Bool) (x y : Word) : Nat :=
  fadTerm (floatSign x) (fadAlign (fadMantX u x) (floatExp y - fadExpX u x)) +
  fadTerm (floatSign y) (fadAlign (fadMantY u v y) (fadExpX u x - floatExp y))

/-- Step 3, `e0`: the larger exponent. -/
def fadExp (u : Bool) (x y : Word) : Nat := max (floatExp y) (fadExpX u x)

/-- Step 5: the magnitude of the sum. -/
def fadMagnitude (sum : Nat) : Nat := if sum.testBit 26 then (2 ^ 32 - sum) % 2 ^ 32 else sum

/-- Step 5: the magnitude with the rounding increment. -/
def fadRounded (sum : Nat) : Nat := (fadMagnitude sum + 1) % 2 ^ 27

/-- Step 5's loop: shift left until bit 24 is set, lowering the exponent. The first argument bounds the number of
shifts; 24 are enough (notes/assumptions/14.md). -/
def fadShift : Nat → Nat → Int → Nat × Int
  | 0, t, e => (t, e)
  | k + 1, t, e => if t.testBit 24 then (t, e) else fadShift k (t * 2) (e - 1)

/-- Step 5: the normalised significand `t3` and exponent `e1`. -/
def fadNormal (sum e0 : Nat) : Nat × Int :=
  if fadRounded sum / 4 % 2 ^ 24 ≠ 0 then fadShift 24 (fadRounded sum / 2) (e0 + 1)
  else (fadRounded sum / 2 * 2 ^ 24, (e0 : Int) + 1 - 24)

/-- Step 6, `v = 1`: the sum as a 27-bit two's-complement number, halved. -/
def fadInteger (sum : Nat) : Word := BitVec.ofInt 32 ((BitVec.ofNat 27 sum).toInt / 2)

/-- Step 6, the packed float; an empty significand or an exponent outside its field gives 0. An exponent of 0 is packed
as it stands, so a negative sum with exponent 0 and fraction 0 is packed as -0, as in FAD of 0x80800001 and 0x00000002.
R93 remarks that -0 comes only through the short-circuits, and R86 that the sign of any other zero result is +0; R87's
pseudocode is followed. DEDUCED, unsafe for a claim about a result of -0; notes/assumptions/13.md. -/
def fadPack (sum : Nat) (t3 : Nat) (e1 : Int) : Word :=
  if t3 % 2 ^ 25 = 0 ∨ (BitVec.ofInt 32 e1).getLsbD 8 then 0#32
  else BitVec.ofBool (sum.testBit 26) ++ (BitVec.ofInt 32 e1).extractLsb' 0 8 ++ BitVec.ofNat 23 (t3 / 2)

/-- The adder's result for operands `x`, `y` and modes `u`, `v` (R87). -/
def floatAdd (u v : Bool) (x y : Word) : Word :=
  if v then fadInteger (fadSum u v x y)
  else if floatIsZero x then (if u then 0#32 else y)
  else if floatIsZero y then x
  else fadPack (fadSum u v x y) (fadNormal (fadSum u v x y) (fadExp u x y)).1
    (fadNormal (fadSum u v x y) (fadExp u x y)).2

/-- FSB: the adder with the right operand's sign flipped, in the same modes (R89). -/
def floatSub (u v : Bool) (x y : Word) : Word := floatAdd u v x (y ^^^ 0x80000000#32)

/-! ### Multiplier and divider (R90 to R92) -/

/-- The largest magnitude with a sign (R90). -/
def floatSaturated (sign : Bool) : Word := BitVec.ofBool sign ++ 0x7FFFFFFF#31

/-- `pack` after a rounding carry has moved into the exponent (R90). -/
def packExp (sign : Bool) (e : Int) (r : Nat) : Word :=
  if 256 ≤ e then floatSaturated sign
  else if e ≤ 0 then 0#32
  else BitVec.ofBool sign ++ BitVec.ofInt 8 e ++ BitVec.ofNat 23 r

/-- `pack(sign, e, r)`: rounding and packing shared by FML and FDV (R90). -/
def floatPack (sign : Bool) (e : Int) (r : Nat) : Word :=
  if r = 2 ^ 24 then packExp sign (e + 1) (2 ^ 23) else packExp sign e r

/-- The significand with its implicit leading 1 (R91, R92). -/
def floatMant (w : Word) : Nat := 2 ^ 23 + floatFrac w

/-- The rounded product of two significands, packed (R91). -/
def mulPack (sign : Bool) (xe ye : Nat) (m : Nat) : Word :=
  if 2 ^ 47 ≤ m then floatPack sign ((xe : Int) + ye - 126) ((m + 2 ^ 23) / 2 ^ 24)
  else floatPack sign ((xe : Int) + ye - 127) ((m + 2 ^ 22) / 2 ^ 23)

/-- FML's result (R91). -/
def floatMul (x y : Word) : Word :=
  if floatExp x = 0 ∨ floatExp y = 0 then 0#32
  else mulPack ((floatSign x).xor (floatSign y)) (floatExp x) (floatExp y) (floatMant x * floatMant y)

/-- The rounded quotient of two significands, packed (R92). -/
def divPack (sign : Bool) (xe ye : Nat) (q : Nat) : Word :=
  if 2 ^ 25 ≤ q then floatPack sign ((xe : Int) - ye + 127) ((q + 2) / 4)
  else floatPack sign ((xe : Int) - ye + 126) ((q + 1) / 2)

/-- FDV's result (R92). -/
def floatDiv (x y : Word) : Word :=
  if floatExp x = 0 then 0#32
  else if floatExp y = 0 then floatSaturated ((floatSign x).xor (floatSign y))
  else divPack ((floatSign x).xor (floatSign y)) (floatExp x) (floatExp y) (floatMant x * 2 ^ 25 / floatMant y)

end Sys2Proof.Machine
end

