-- ==== Sys2Proof/Machine/FloatUnit.lean ====
section
/-! DEFINITION. The meanings of the floating-point instructions (spec/41_float.md). Every result goes through the
write path; `C`, `V` and `H` do not change (R93). -/

namespace Sys2Proof.Machine

/-- FAD with the modes FLT (`u`) and FLOOR (`v`) (R87). -/
def execFad (a b : Reg) (u v : Bool) (c : Operand) (s : State) : Host.Outcome State Fault Refusal :=
  .next (s.writeReg a (floatAdd u v (s.reg b) (s.operand c)))

/-- FSB (R89). -/
def execFsb (a b : Reg) (u v : Bool) (c : Operand) (s : State) : Host.Outcome State Fault Refusal :=
  .next (s.writeReg a (floatSub u v (s.reg b) (s.operand c)))

/-- FML (R91). -/
def execFml (a b : Reg) (c : Operand) (s : State) : Host.Outcome State Fault Refusal :=
  .next (s.writeReg a (floatMul (s.reg b) (s.operand c)))

/-- FDV (R92). -/
def execFdv (a b : Reg) (c : Operand) (s : State) : Host.Outcome State Fault Refusal :=
  .next (s.writeReg a (floatDiv (s.reg b) (s.operand c)))

end Sys2Proof.Machine
end

