-- ==== Sys2Proof/Machine/Mmio.lean ====
section
/-! DEFINITION. The MMIO register window and the calls it makes to attached devices (spec/60_exceptions.md section 3). -/

namespace Sys2Proof.Machine

open Config (DevicePort DeviceCall)

/-! ### Device calls (R131) -/

/-- Whether the device of a port is attached (R30). -/
def State.attached (s : State) : DevicePort → Bool
  | .serialData => s.serialAttached
  | .serialStatus => s.serialAttached
  | .spiData slot => s.spiAttached[slot.toNat]'slot.isLt
  | .clipboardControl => s.clipboardAttached
  | .clipboardData => s.clipboardAttached

/-- What a read of an absent device returns: 255 on an SPI slot (R126), else 0 (R125, R129). -/
def absentAnswer : DevicePort → Word
  | .serialData => 0#32
  | .serialStatus => 0#32
  | .spiData _ => 255#32
  | .clipboardControl => 0#32
  | .clipboardData => 0#32

/-- The word the environment answers to the next read of a port (R131): a free value. -/
def State.oracle (s : State) (port : DevicePort) : Word := Config.deviceAnswer port s.deviceCalls s.deviceTick

/-- A read method of a device: one oracle call if it is attached (R131), else the absent device's word. -/
def State.deviceRead (s : State) (port : DevicePort) : State × Word :=
  if s.attached port then
    ({ s with deviceCalls := .read port (s.oracle port) :: s.deviceCalls, deviceTick := s.deviceTick + 1 }, s.oracle port)
  else (s, absentAnswer port)

/-- A write method of a device: the word is delivered if it is attached (R131), else dropped. -/
def State.deviceWrite (s : State) (port : DevicePort) (v : Word) : State :=
  if s.attached port then { s with deviceCalls := .write port v :: s.deviceCalls } else s

/-! ### The register window (R120) -/

/-- The MMIO registers of R120. -/
inductive MmioReg where
  | timer | switchesLeds | serialData | serialStatus | spiData | spiControl | mouse | keyboard
  | clipboardControl | clipboardData
  deriving DecidableEq, Repr

/-- The register at an offset from `IO_START`, matched exactly (R120, R121). -/
def mmioRegAt (off : Nat) : Option MmioReg :=
  if off = 0 then some .timer
  else if off = 4 then some .switchesLeds
  else if off = 8 then some .serialData
  else if off = 12 then some .serialStatus
  else if off = 16 then some .spiData
  else if off = 20 then some .spiControl
  else if off = 24 then some .mouse
  else if off = 28 then some .keyboard
  else if off = 40 then some .clipboardControl
  else if off = 44 then some .clipboardData
  else none

/-- The progress counter's decrement (R130). -/
def State.decProgress (s : State) : State := { s with progress := s.progress - 1 }

/-- A read of the timer returns it and then decrements `progress` (R123). -/
def State.readTimer (s : State) : State × Word := (s.decProgress, s.timer)

/-- A read of mouse and keyboard status; with no key queued it decrements `progress` (R127). -/
def State.readMouse (s : State) : State × Word :=
  if s.keys.isEmpty then (s.decProgress, s.mouse) else (s, s.mouse ||| 0x10000000#32)

/-- A read of the keyboard pops the oldest byte; an empty queue reads 0 (R128). -/
def State.readKeyboard (s : State) : State × Word :=
  match s.keys with
  | [] => (s, 0#32)
  | b :: rest => ({ s with keys := rest }, b.setWidth 32)

/-- A read of one MMIO register (R120, R123 to R129). -/
def State.mmioReadReg (s : State) : MmioReg → State × Word
  | .timer => s.readTimer
  | .switchesLeds => (s, s.switches)
  | .serialData => s.deviceRead .serialData
  | .serialStatus => s.deviceRead .serialStatus
  | .spiData => s.deviceRead (.spiData s.spiSelected)
  | .spiControl => (s, 1#32)
  | .mouse => s.readMouse
  | .keyboard => s.readKeyboard
  | .clipboardControl => s.deviceRead .clipboardControl
  | .clipboardData => s.deviceRead .clipboardData

/-- A write of one MMIO register; read-only registers ignore it (R120, R122 to R129). -/
def State.mmioWriteReg (s : State) (v : Word) : MmioReg → State
  | .timer => s
  | .switchesLeds => { s with leds := v }
  | .serialData => s.deviceWrite .serialData v
  | .serialStatus => s
  | .spiData => s.deviceWrite (.spiData s.spiSelected) v
  | .spiControl => { s with spiSelected := v.extractLsb' 0 2 }
  | .mouse => s
  | .keyboard => s
  | .clipboardControl => s.deviceWrite .clipboardControl v
  | .clipboardData => s.deviceWrite .clipboardData v

/-- The register an MMIO address selects by its full offset (R121). -/
def mmioSelect (p : Config.Params) (a : Word) : Option MmioReg := mmioRegAt (a.toNat - p.ioStart)

/-- `MMIORead(a)`; an unmatched offset reads 0 with no side effect (R121). -/
def State.mmioRead (s : State) (a : Word) : State × Word :=
  match mmioSelect s.params a with
  | some r => s.mmioReadReg r
  | none => (s, 0#32)

/-- `MMIOWrite(a, v)`; an unmatched offset ignores it (R122). -/
def State.mmioWrite (s : State) (a v : Word) : State :=
  match mmioSelect s.params a with
  | some r => s.mmioWriteReg v r
  | none => s

end Sys2Proof.Machine
end

