-- ==== Sys2Proof/Machine/Bus.lean ====
section
/-! DEFINITION. The memory bus: address decoder, word and byte transcoder, damage tracker (spec/20_memory.md). -/

namespace Sys2Proof.Machine

/-- The regions of the data address space (R34). -/
inductive Region where
  | ram | mmio | rom | none
  deriving DecidableEq, Repr

/-- The region of a data byte address, tested in the order of R34. -/
def regionOf (p : Config.Params) (a : Word) : Region :=
  if a.toNat < p.memSize then .ram
  else if p.ioStart ≤ a.toNat then .mmio
  else if p.romStart ≤ a.toNat ∧ a.toNat - p.romStart < 4 * p.romWords then .rom
  else .none

/-! ### Damage tracker (R44, R45) -/

/-- The smallest rectangle that holds both a rectangle and a point (R45). -/
def Rect.mark (r : Rect) (col row : Nat) : Rect :=
  ⟨min r.x1 col, min r.y1 row, max r.x2 col, max r.y2 row⟩

/-- The word offset of an address in the framebuffer (R45). -/
def frameOffset (p : Config.Params) (a : Word) : Nat := a.toNat / 4 - p.displayStart / 4

/-- `DamageMark(a)`; rows at or beyond `FB_HEIGHT` are dropped (R45). -/
def damageMark (p : Config.Params) (a : Word) (r : Rect) : Rect :=
  if frameOffset p a / p.fbWidth < p.fbHeight then
    r.mark (frameOffset p a % p.fbWidth) (frameOffset p a / p.fbWidth)
  else r

/-! ### Words (R36, R37) -/

/-- `LoadWord(a)` (R36, R41). -/
def State.loadWord (s : State) (a : Word) : State × Word :=
  match regionOf s.params a with
  | .ram => (s, s.ram.readWord (wordBase a))
  | .rom => (s, s.rom.readWord (wordBase a))
  | .mmio => s.mmioRead a
  | .none => (s, 0#32)

/-- The RAM branch of `StoreWord(a, v)`: the word is written, and a store into the display region marks damage
(R37, R44). -/
def State.storeRamWord (s : State) (a v : Word) : State :=
  { s with
    ram := s.ram.writeWord (wordBase a) v
    damage := if s.params.displayStart ≤ a.toNat then damageMark s.params a s.damage else s.damage }

/-- `StoreWord(a, v)` (R37, R41). -/
def State.storeWord (s : State) (a v : Word) : State :=
  match regionOf s.params a with
  | .ram => s.storeRamWord a v
  | .rom => s
  | .mmio => s.mmioWrite a v
  | .none => s

/-! ### Bytes (R38, R39) -/

/-- The first bit of the byte lane of an address: `8 * a[1:0]` (R40). -/
def laneShift (a : Word) : Nat := 8 * (a.toNat % 4)

/-- The byte of a word in the lane of an address (R38). -/
def laneByte (w a : Word) : Byte := w.extractLsb' (laneShift a) 8

/-- A word with the byte in the lane of an address replaced (R39). -/
def withLaneByte (w a : Word) (b : Byte) : Word :=
  (w &&& ~~~(0xFF#32 <<< laneShift a)) ||| (b.setWidth 32 <<< laneShift a)

/-- `LoadByte(a)`: one `LoadWord(a)` at the full address, then the lane (R38). -/
def State.loadByte (s : State) (a : Word) : State × Byte :=
  ((s.loadWord a).1, laneByte (s.loadWord a).2 a)

/-- `StoreByte(a, b)`: read-modify-write in RAM, one zero-extended write to MMIO (R39). -/
def State.storeByte (s : State) (a : Word) (b : Byte) : State :=
  match regionOf s.params a with
  | .ram => s.storeWord a (withLaneByte (s.ram.readWord (wordBase a)) a b)
  | .rom => s
  | .mmio => s.mmioWrite a (b.setWidth 32)
  | .none => s

end Sys2Proof.Machine
end

