-- ==== Sys2Proof/Machine/LoadStore.lean ====
section
/-! DEFINITION. The meanings of the loads and stores (spec/42_load_store.md). Each performs one bus operation at the
effective address; none faults (R95). -/

namespace Sys2Proof.Machine

/-- Writes what a bus read answered to a register, in the state the read left (R95). -/
def writeLoaded (a : Reg) (r : State × Word) : State := r.1.writeReg a r.2

/-- LDW (R96). -/
def execLdw (a b : Reg) (off : BitVec 20) (s : State) : Host.Outcome State Fault Refusal :=
  .next (writeLoaded a (s.loadWord (s.effectiveAddress b off)))

/-- LDB, zero-extended (R97). -/
def execLdb (a b : Reg) (off : BitVec 20) (s : State) : Host.Outcome State Fault Refusal :=
  let r := s.loadByte (s.effectiveAddress b off)
  .next (writeLoaded a (r.1, r.2.setWidth 32))

/-- STW (R98). -/
def execStw (a b : Reg) (off : BitVec 20) (s : State) : Host.Outcome State Fault Refusal :=
  .next (s.storeWord (s.effectiveAddress b off) (s.reg a))

/-- STB, the low byte of the source (R99). -/
def execStb (a b : Reg) (off : BitVec 20) (s : State) : Host.Outcome State Fault Refusal :=
  .next (s.storeByte (s.effectiveAddress b off) ((s.reg a).extractLsb' 0 8))

end Sys2Proof.Machine
end

