-- ==== Sys2Proof/Machine/Dispatch.lean ====
section
/-! DEFINITION. One arm per instruction: a direct call of its meaning. -/

namespace Sys2Proof.Machine

def exec (i : Instr) (s : State) : Host.Outcome State Fault Refusal :=
  match i with
  -- register format, integer (spec/40_integer_alu.md)
  | .mov a c => Sys2Proof.Machine.execMov a c s
  | .movu a value => Sys2Proof.Machine.execMovu a value s
  | .movf a => Sys2Proof.Machine.execMovf a s
  | .movh a => Sys2Proof.Machine.execMovh a s
  | .lsl a b c => Sys2Proof.Machine.execLsl a b c s
  | .asr a b c => Sys2Proof.Machine.execAsr a b c s
  | .ror a b c => Sys2Proof.Machine.execRor a b c s
  | .and a b c => Sys2Proof.Machine.execAnd a b c s
  | .ann a b c => Sys2Proof.Machine.execAnn a b c s
  | .ior a b c => Sys2Proof.Machine.execIor a b c s
  | .xor a b c => Sys2Proof.Machine.execXor a b c s
  | .add a b c => Sys2Proof.Machine.execAdd a b c s
  | .sub a b c => Sys2Proof.Machine.execSub a b c s
  | .mul a b c => Sys2Proof.Machine.execMul a b c s
  | .mulu a b c => Sys2Proof.Machine.execMulu a b c s
  | .div a b c => Sys2Proof.Machine.execDiv a b c s
  -- register format, floating point (spec/41_float.md)
  | .fad a b u v c => Sys2Proof.Machine.execFad a b u v c s
  | .fsb a b u v c => Sys2Proof.Machine.execFsb a b u v c s
  | .fml a b c => Sys2Proof.Machine.execFml a b c s
  | .fdv a b c => Sys2Proof.Machine.execFdv a b c s
  -- memory format (spec/42_load_store.md)
  | .ldw a b off => Sys2Proof.Machine.execLdw a b off s
  | .ldb a b off => Sys2Proof.Machine.execLdb a b off s
  | .stw a b off => Sys2Proof.Machine.execStw a b off s
  | .stb a b off => Sys2Proof.Machine.execStb a b off s
  -- branch format (spec/43_branch.md)
  | .bReg inv cond c => Sys2Proof.Machine.execBReg inv cond c s
  | .blReg inv cond c => Sys2Proof.Machine.execBlReg inv cond c s
  | .bOff inv cond off => Sys2Proof.Machine.execBOff inv cond off s
  | .blOff inv cond off => Sys2Proof.Machine.execBlOff inv cond off s

end Sys2Proof.Machine
end

