-- ==== Sys2Proof/Machine/Step.lean ====
section
/-! DEFINITION. One step of the machine (spec/70_reset_and_hazards.md R136), and the placing of one instruction
where the next step fetches it. -/

namespace Sys2Proof.Machine

/-- `step()`: fetch, increment the pc, decode, execute; or one invalid-fetch reset (R136, R111). A word the decoder
refused would be the Fatal category (R112), which no word is (R64). -/
def step (s : State) : Host.Outcome State Fault Refusal :=
  match s.fetch with
  | none => .next s.takeInvalidFetch
  | some ir =>
    match decode (bytesOfWord ir) with
    | .ok (i, _) => exec i (s.setPc (s.pc + 1#32))
    | .error _ => .fault (.fatal ir)

/-- The state with a table row's word stored where the next step fetches: in RAM or ROM at the pc. Where the pc
designates neither, it moves to RAM word 0 first, which every machine has (R6); notes/assumptions/15.md. -/
def State.withFetchWord (s : State) (nbits w : Nat) : State :=
  if inRamIndex s.params s.pc.toNat then
    { s with ram := s.ram.writeWord (4 * s.pc.toNat) (tableWord nbits w) }
  else if inRomIndex s.params s.pc.toNat then
    { s with rom := s.rom.writeWord (4 * s.pc.toNat) (tableWord nbits w) }
  else { s with pc := 0#32, ram := s.ram.writeWord 0 (tableWord nbits w) }

end Sys2Proof.Machine
end

