-- ==== Sys2Proof/Machine/HostOps.lean ====
section
/-! DEFINITION. What the host may do with a machine between steps (spec/70_reset_and_hazards.md R133, R138, R139,
spec/20_memory.md R46). -/

namespace Sys2Proof.Machine

/-- Which device handles the host supplies (R30, R133). -/
structure Devices where
  serial : Bool
  spi : Vector Bool 4
  clipboard : Bool
  deriving DecidableEq, Repr

/-- The ROM array of an image: the words of the image from `ROM_START` up, `ROM_WORDS` of them, zeros where the
image is shorter (R27, R133). -/
def romOfImage : (words : Nat) → (base : Nat) → List Word → Memory
  | 0, _, _ => []
  | _ + 1, _, [] => []
  | n + 1, base, w :: rest => (romOfImage n (base + 4) rest).writeWord base w

/-- `construct(ROM_IMAGE, devices, parameters)` (R133, R32). -/
def State.construct (p : Config.Params) (image : List Word) (d : Devices) : State :=
  { State.reset with
    params := p
    pc := romBaseIndex p
    rom := romOfImage p.romWords p.romStart image
    damage := ⟨0, 0, p.fbWidth - 1, p.fbHeight - 1⟩
    progress := p.progressInit
    serialAttached := d.serial
    spiAttached := d.spi
    clipboardAttached := d.clipboard }

/-- The loop of `run`: budget left, steps taken, state. Its second answer is the state it ends in, or the stop of a
step, which no step makes (R136). -/
def runLoop : (budget : Nat) → (taken : Nat) → State → Nat × Host.Outcome State Fault Refusal
  | 0, taken, s => (taken, .next s)
  | k + 1, taken, s =>
    if 0 < s.progress then
      match step s with
      | .next t => runLoop k (taken + 1) t
      | .fault f => (taken, .fault f)
      | .refused r => (taken, .refused r)
    else (taken, .next s)

/-- `run(cycles)`: the number of steps taken, and where they end (R138). -/
def State.run (s : State) (cycles : Nat) : Nat × Host.Outcome State Fault Refusal :=
  runLoop cycles 0 { s with progress := s.params.progressInit }

/-- `setTimer(ms)` (R139). -/
def State.setTimer (s : State) (ms : Word) : State := { s with timer := ms }

/-- `setSwitches(w)` (R139). -/
def State.setSwitches (s : State) (w : Word) : State := { s with switches := w }

/-- `getLeds()` (R139). -/
def State.getLeds (s : State) : Word := s.leds

/-- `setMouse(x, y, buttons)`: `x` in bits 11:0, `y` in bits 23:12, the buttons in bits 26:24 (R127, R139). -/
def State.setMouse (s : State) (x y buttons : Word) : State :=
  { s with mouse := (x.extractLsb' 0 12).setWidth 32 + ((y.extractLsb' 0 12).setWidth 32 <<< 12) +
      ((buttons.extractLsb' 0 3).setWidth 32 <<< 24) }

/-- `pushKey(byte)`: dropped when the queue is full (R128, R139). -/
def State.pushKey (s : State) (b : Byte) : State :=
  if s.keys.length < s.params.keyQueueCap then { s with keys := s.keys ++ [b] } else s

/-- The empty rectangle (R46). -/
def emptyRect (p : Config.Params) : Rect := ⟨p.fbWidth, p.fbHeight, 0, 0⟩

/-- `consumeDamage()`: the rectangle, and the state with the empty one (R46). -/
def State.consumeDamage (s : State) : Rect × State := (s.damage, { s with damage := emptyRect s.params })

end Sys2Proof.Machine
end

