-- ==== Sys2Proof/Safety.lean ====
section
/-! DEFINITION. What counts as a legal state and what an instruction leaves alone, in the terms the statements use. -/

namespace Sys2Proof.Machine

/-! ### Legal states -/

/-- Every listed address of a memory lies in `[lo, hi)`. -/
abbrev Memory.within (m : Memory) (lo hi : Nat) : Prop := ∀ p ∈ m, lo ≤ p.1 ∧ p.1 < hi

/-- The damage rectangle has coordinates of the framebuffer, or is the empty one (R28, R46). -/
abbrev Rect.inFrame (r : Rect) (p : Config.Params) : Prop :=
  r.x1 ≤ p.fbWidth ∧ r.y1 ≤ p.fbHeight ∧ r.x2 < p.fbWidth ∧ r.y2 < p.fbHeight

/-- The invariant of the machine: the parameters meet R6, both arrays are in canonical form and list only their own
addresses (R26, R27), the queue is within its capacity (R30), the rectangle is within the framebuffer (R28, R45) and
the counter does not exceed its initial value (R130, R138). -/
abbrev State.Inv (s : State) : Prop :=
  s.params.wf ∧
  (s.ram.wf ∧ s.ram.within 0 s.params.memSize) ∧
  (s.rom.wf ∧ s.rom.within s.params.romStart (s.params.romStart + 4 * s.params.romWords)) ∧
  s.keys.length ≤ s.params.keyQueueCap ∧
  s.damage.inFrame s.params ∧
  s.progress ≤ s.params.progressInit

/-! ### Frames -/

/-- Every byte of RAM and of ROM reads as before. -/
def SameMemory (s t : State) : Prop := ∀ k, t.ram.read k = s.ram.read k ∧ t.rom.read k = s.rom.read k

/-- The parameters and everything the host and the devices see are as before: damage, progress, the MMIO registers,
the device handles and records, and the log. -/
def SameDevices (s t : State) : Prop :=
  t.params = s.params ∧ t.damage = s.damage ∧ t.progress = s.progress ∧
  t.timer = s.timer ∧ t.switches = s.switches ∧ t.leds = s.leds ∧ t.mouse = s.mouse ∧ t.keys = s.keys ∧
  t.spiSelected = s.spiSelected ∧ t.serialAttached = s.serialAttached ∧ t.spiAttached = s.spiAttached ∧
  t.clipboardAttached = s.clipboardAttached ∧ t.deviceCalls = s.deviceCalls ∧ t.deviceTick = s.deviceTick ∧
  t.log = s.log

/-- No register but `a` changed. -/
def OtherRegsSame (s t : State) (a : Reg) : Prop := ∀ r, r ≠ a → t.reg r = s.reg r

/-- No register changed. -/
def AllRegsSame (s t : State) : Prop := ∀ r, t.reg r = s.reg r

/-- All four flags are as before. -/
def SameFlags (s t : State) : Prop :=
  t.flagN = s.flagN ∧ t.flagZ = s.flagZ ∧ t.flagC = s.flagC ∧ t.flagV = s.flagV

/-- `Z` and `N` say whether a value is zero and whether it is negative (R15). -/
def SignZeroOf (t : State) (v : Word) : Prop := (t.flagZ = true ↔ v = 0#32) ∧ (t.flagN = true ↔ v.toInt < 0)

/-- What a register-format instruction leaves alone besides `C`, `V` and `H`: every register but the destination `a`,
whose value `Z` and `N` describe, the pc, memory and the devices (R15, R68). -/
def RegisterWrite (s t : State) (a : Reg) : Prop :=
  OtherRegsSame s t a ∧ SignZeroOf t (t.reg a) ∧ t.pc = s.pc ∧ SameMemory s t ∧ SameDevices s t

/-- `C` and `V` are as before (R22). -/
def SameCV (s t : State) : Prop := t.flagC = s.flagC ∧ t.flagV = s.flagV

/-- The register an instruction writes through the write path: its destination field, the link register of a taken
linking branch, and none for a store, a branch that does not link or is not taken, or a DIV whose divisor is not
positive (R15, R21). -/
def State.destination (s : State) : Instr → Option Reg
  | .mov a _ => some a
  | .movu a _ => some a
  | .movf a => some a
  | .movh a => some a
  | .lsl a _ _ => some a
  | .asr a _ _ => some a
  | .ror a _ _ => some a
  | .and a _ _ => some a
  | .ann a _ _ => some a
  | .ior a _ _ => some a
  | .xor a _ _ => some a
  | .add a _ _ => some a
  | .sub a _ _ => some a
  | .mul a _ _ => some a
  | .mulu a _ _ => some a
  | .div a _ c => if (s.operand c).toInt ≤ 0 then none else some a
  | .fad a _ _ _ _ => some a
  | .fsb a _ _ _ _ => some a
  | .fml a _ _ => some a
  | .fdv a _ _ => some a
  | .ldw a _ _ => some a
  | .ldb a _ _ => some a
  | .stw _ _ _ => none
  | .stb _ _ _ => none
  | .bReg _ _ _ => none
  | .blReg inv cond _ => if s.takes inv cond then some linkReg else none
  | .bOff _ _ _ => none
  | .blOff inv cond _ => if s.takes inv cond then some linkReg else none

/-! ### Floating-point values (R85) -/

/-- The float `w`, whose exponent field is 1 to 150, is the integer `n`: `n * 2^(150 - e)` is its signed significand. -/
def FloatIsInt (w : Word) (n : Int) : Prop :=
  1 ≤ floatExp w ∧ floatExp w ≤ 150 ∧ signedMag (floatSign w) (floatMant w) = n * 2 ^ (150 - floatExp w)

/-! ### Ignored bits (R65) -/

/-- The bits of an instruction word that no rule reads (R65). -/
def ignoredBits (w : Word) : Word :=
  if bitP w then (if bitQ w && !bitU w then 0x00FFFFF0#32 else 0#32)
  else
    match opcodeOfBits (fieldOp w) with
    | .mov =>
      if bitU w then (if bitQ w then 0x10F00000#32 else 0x00F0FFFF#32)
      else (if bitQ w then 0x00F00000#32 else 0x10F0FFF0#32)
    | .mul => if bitQ w then 0#32 else 0x1000FFF0#32
    | .fad => if bitQ w then 0#32 else 0x0000FFF0#32
    | .fsb => if bitQ w then 0#32 else 0x0000FFF0#32
    | _ => if bitQ w then 0x20000000#32 else 0x3000FFF0#32

end Sys2Proof.Machine
end

