-- ==== Sys2Proof/Certificates/Slice0/Obligations.lean ====
section
/-! DEFINITION. The statements for the provers: def Obligations.<Name> : Prop, listed in OBLIGATIONS.json. -/

section

open Sys2Proof Sys2Proof.Machine

/-! ### Encoding (spec/30_encoding.md) -/

/-- Decoding the bytes of any well-formed instruction gives it back, with nothing left over. -/
def Obligations.DecodeEncodeRoundTrip : Prop :=
  ∀ i : Instr, i.WellFormed → decode (encodeBytes i) = .ok (i, [])

/-- R64: every 32-bit word, followed by any bytes, decodes to exactly one instruction, a well-formed one, which
executes in every state. -/
def Obligations.EveryWordDecodes : Prop :=
  ∀ (w : Word) (rest : List Byte), ∃ i : Instr,
    decode (bytesOfWord w ++ rest) = .ok (i, rest) ∧ i.WellFormed ∧
    (∀ j, decode (bytesOfWord w ++ rest) = .ok (j, rest) → j = i) ∧ ∀ s : State, ∃ t, exec i s = .next t

/-- R65: the ignored bits do not change what a word decodes to, and encoding the decoded instruction gives every
other bit back. -/
def Obligations.IgnoredBitsChangeNothing : Prop :=
  ∀ w : Word, encode (decodeWord w) = w &&& ~~~ignoredBits w ∧ decodeWord (w &&& ~~~ignoredBits w) = decodeWord w

/-- Words written out by the spec decode to the instructions it names (95_test_vectors.md, R67, R103 to R106). -/
def Obligations.SpecWordsDecode : Prop :=
  decodeTableWord 32 0x41001234 = some (.mov 1#4 (.imm false 0x1234#16)) ∧
  decodeTableWord 32 0x51000005 = some (.mov 1#4 (.imm true 5#16)) ∧
  decodeTableWord 32 0x6100ABCD = some (.movu 1#4 0xABCD#16) ∧
  decodeTableWord 32 0x31000000 = some (.movf 1#4) ∧
  decodeTableWord 32 0x21000000 = some (.movh 1#4) ∧
  decodeTableWord 32 0x01290003 = some (.sub 1#4 2#4 (.reg 3#4)) ∧
  decodeTableWord 32 0x212A0003 = some (.mulu 1#4 2#4 (.reg 3#4)) ∧
  decodeTableWord 32 0x200C0001 = some (.fad 0#4 0#4 true false (.reg 1#4)) ∧
  decodeTableWord 32 0x812FFFFC = some (.ldw 1#4 2#4 0xFFFFC#20) ∧
  decodeTableWord 32 0xB1200001 = some (.stb 1#4 2#4 1#20) ∧
  decodeTableWord 32 0xCF000000 = some (.bReg true .always 0#4) ∧
  decodeTableWord 32 0xD7000003 = some (.blReg false .always 3#4) ∧
  decodeTableWord 32 0xE9FFFF00 = some (.bOff true .eq 0xFFFF00#24) ∧
  decodeTableWord 32 0xF7000010 = some (.blOff false .always 0x10#24)

/-! ### The step (spec/70_reset_and_hazards.md, 20_memory.md R35) -/

/-- R35: fetch reads RAM below `MEM_SIZE / 4`, else ROM in the ROM range, else it is invalid. -/
def Obligations.FetchReadsRamOrRom : Prop :=
  ∀ s : State,
    (s.pc.toNat < s.params.memSize / 4 → s.fetch = some (s.ram.readWord (4 * s.pc.toNat))) ∧
    (s.params.memSize / 4 ≤ s.pc.toNat → s.params.romStart / 4 ≤ s.pc.toNat →
      s.pc.toNat < s.params.romStart / 4 + s.params.romWords → s.fetch = some (s.rom.readWord (4 * s.pc.toNat))) ∧
    (s.params.memSize / 4 ≤ s.pc.toNat →
      (s.pc.toNat < s.params.romStart / 4 ∨ s.params.romStart / 4 + s.params.romWords ≤ s.pc.toNat) → s.fetch = none)

/-- R136: when the bytes of the fetched word decode to an instruction, the step is that instruction, executed after
the pc has advanced by one. -/
def Obligations.StepRunsDecodedInstruction : Prop :=
  ∀ (s : State) (ir : Word) (i : Instr) (rest : List Byte), s.fetch = some ir → i.WellFormed →
    decode (bytesOfWord ir) = .ok (i, rest) → step s = exec i { s with pc := s.pc + 1#32 }

/-- R111: an invalid fetch logs the offending word index and sets the pc to the ROM base; nothing else changes. -/
def Obligations.InvalidFetchResetsPcOnly : Prop :=
  ∀ s : State, s.fetch = none →
    step s = .next { s with pc := BitVec.ofNat 32 (s.params.romStart / 4), log := .invalidFetch s.pc :: s.log }

/-- R136: a step never fails. -/
def Obligations.StepNeverStops : Prop := ∀ s : State, ∃ t, step s = .next t

/-- The invariant is kept by every step. -/
def Obligations.StepKeepsInvariant : Prop := ∀ s t : State, s.Inv → step s = .next t → t.Inv

/-- R133: the state right after construction has the invariant, for every parameter choice that meets R6, every image
and every device choice; so has the state after reset. -/
def Obligations.ResetHasInvariant : Prop :=
  State.reset.Inv ∧
  ∀ (p : Config.Params) (image : List Word) (d : Devices), p.wf → (State.construct p image d).Inv

/-- A word placed where the next step fetches is the instruction the next step runs, if the parameters meet R6. -/
def Obligations.PlacedInstructionRunsNext : Prop :=
  ∀ (s : State) (w : Nat), s.params.wf → s.ram.wf → s.rom.wf →
    ∃ t : State, s.withFetchWord 32 w = t ∧ t.fetch = some (BitVec.ofNat 32 w) ∧
      step t = exec (decodeWord (BitVec.ofNat 32 w)) { t with pc := t.pc + 1#32 }

/-! ### Construction, reset and run (R133, R134, R138) -/

/-- R133: the state right after construction, for every parameter choice, device choice and ROM image. -/
def Obligations.ConstructionState : Prop :=
  ∀ (p : Config.Params) (image : List Word) (d : Devices), image.length = p.romWords →
    ∃ s : State, State.construct p image d = s ∧ s.params = p ∧
      (∀ r, s.reg r = 0#32) ∧ s.h = 0#32 ∧
      (s.flagN, s.flagZ, s.flagC, s.flagV) = (false, false, false, false) ∧
      s.pc = BitVec.ofNat 32 (p.romStart / 4) ∧
      (∀ k, s.ram.read k = 0#8) ∧
      (∀ k (h : k < image.length), s.rom.readWord (p.romStart + 4 * k) = image[k]) ∧
      s.damage = ⟨0, 0, p.fbWidth - 1, p.fbHeight - 1⟩ ∧ s.progress = p.progressInit ∧
      (s.timer, s.switches, s.leds, s.mouse) = (0#32, 0#32, 0#32, 0#32) ∧ s.keys = [] ∧ s.spiSelected = 0#2 ∧
      s.serialAttached = d.serial ∧ s.spiAttached = d.spi ∧ s.clipboardAttached = d.clipboard

/-- The state after reset is the construction state with the default parameters, an empty image and no device: the
model's choice of those three, notes/assumptions/1.md, 2.md and 3.md. -/
def Obligations.ResetIsDefaultConstruction : Prop :=
  State.reset = State.construct Config.defaultParams [] ⟨false, Vector.replicate 4 false, false⟩ ∧
  State.reset.pc = 0x3FFFFE00#32 ∧ State.reset.damage = ⟨0, 0, 31, 767⟩ ∧ State.reset.progress = 20

/-- R134, R135: `reset()` moves the pc to the ROM base, changes nothing else, and twice is once. -/
def Obligations.ResetOperationIdempotent : Prop :=
  ∀ s : State, s.resetPc = { s with pc := BitVec.ofNat 32 (s.params.romStart / 4) } ∧ s.resetPc.resetPc = s.resetPc

/-- R138: `run` sets the counter first, takes at most its budget, stops short only when the counter is not positive,
and with one more cycle of budget takes one more step while the counter is positive and else none. -/
def Obligations.RunFollowsStep : Prop :=
  ∀ (s : State) (cycles : Nat),
    s.run 0 = (0, .next { s with progress := s.params.progressInit }) ∧
    (∃ k t, s.run cycles = (k, .next t) ∧ k ≤ cycles ∧ (k < cycles → t.progress ≤ 0)) ∧
    (∀ t u, s.run cycles = (cycles, .next t) → step t = .next u →
      s.run (cycles + 1) = if 0 < t.progress then (cycles + 1, .next u) else (cycles, .next t)) ∧
    (∀ k t, k < cycles → s.run cycles = (k, .next t) → s.run (cycles + 1) = (k, .next t))

/-! ### Whole-machine rules -/

/-- R27, R30, R31: no step changes ROM, the parameters, the host-set registers or the device handles. -/
def Obligations.StepKeepsRomAndHostInputs : Prop :=
  ∀ s t : State, step s = .next t →
    t.rom = s.rom ∧ t.params = s.params ∧ t.timer = s.timer ∧ t.switches = s.switches ∧ t.mouse = s.mouse ∧
    t.serialAttached = s.serialAttached ∧ t.spiAttached = s.spiAttached ∧ t.clipboardAttached = s.clipboardAttached

/-- R22, R19, R16: `C` and `V` are written only by ADD and SUB, `H` only by MUL, MULU and DIV, and the pc, apart from
its increment, only by the branches. -/
def Obligations.SpecialStateOnlyByNamedInstructions : Prop :=
  ∀ (i : Instr) (s t : State), exec i s = .next t →
    ((∀ a b c, i ≠ .add a b c) → (∀ a b c, i ≠ .sub a b c) → t.flagC = s.flagC ∧ t.flagV = s.flagV) ∧
    ((∀ a b c, i ≠ .mul a b c) → (∀ a b c, i ≠ .mulu a b c) → (∀ a b c, i ≠ .div a b c) → t.h = s.h) ∧
    ((∀ inv cc c, i ≠ .bReg inv cc c) → (∀ inv cc c, i ≠ .blReg inv cc c) →
      (∀ inv cc off, i ≠ .bOff inv cc off) → (∀ inv cc off, i ≠ .blOff inv cc off) → t.pc = s.pc)

/-- R21: an instruction that writes a register through the write path changes no other register, and `Z` and `N`
describe that register's value; any other instruction (a store, a branch that does not link, a branch not taken, a DIV
whose divisor is not positive) changes no register, and neither `Z` nor `N`. -/
def Obligations.SignZeroFollowTheWrittenRegister : Prop :=
  ∀ (i : Instr) (s t : State), exec i s = .next t →
    (∀ a, s.destination i = some a → OtherRegsSame s t a ∧ SignZeroOf t (t.reg a)) ∧
    (s.destination i = none → AllRegsSame s t ∧ t.flagZ = s.flagZ ∧ t.flagN = s.flagN)

/-- R130: an instruction decrements `progress` by one if it is a load from the timer, or from the mouse register with
no key queued; else it leaves it. -/
def Obligations.ProgressOnlyByPollingLoads : Prop :=
  ∀ (i : Instr) (s t : State), s.params.wf → exec i s = .next t →
    ((∃ a b off, (i = .ldw a b off ∨ i = .ldb a b off) ∧
        ((s.effectiveAddress b off).toNat = s.params.ioStart ∨
          ((s.effectiveAddress b off).toNat = s.params.ioStart + 24 ∧ s.keys = []))) →
      t.progress = s.progress - 1) ∧
    ((∀ a b off, (i = .ldw a b off ∨ i = .ldb a b off) →
        (s.effectiveAddress b off).toNat ≠ s.params.ioStart ∧
          ((s.effectiveAddress b off).toNat ≠ s.params.ioStart + 24 ∨ s.keys ≠ [])) →
      t.progress = s.progress)

/-- R42, R131: a step makes at most one device call, and only to an attached device. -/
def Obligations.AtMostOneDeviceCall : Prop :=
  ∀ s t : State, step s = .next t →
    t.deviceCalls = s.deviceCalls ∨
    ∃ port v, s.attached port = true ∧
      (t.deviceCalls = .read port v :: s.deviceCalls ∨ t.deviceCalls = .write port v :: s.deviceCalls)

/-- R45: a step never shrinks the damage rectangle. -/
def Obligations.DamageNeverShrinks : Prop :=
  ∀ s t : State, step s = .next t →
    t.damage.x1 ≤ s.damage.x1 ∧ t.damage.y1 ≤ s.damage.y1 ∧ s.damage.x2 ≤ t.damage.x2 ∧ s.damage.y2 ≤ t.damage.y2

/-- R114: a step has at most one exceptional event, and it is an invalid fetch exactly when the fetch fails. -/
def Obligations.AtMostOneEventPerStep : Prop :=
  ∀ s t : State, step s = .next t →
    (s.fetch = none ∧ t.log = .invalidFetch s.pc :: s.log) ∨
    (s.fetch ≠ none ∧ (t.log = s.log ∨ ∃ d : Word, d.toInt ≤ 0 ∧ t.log = .divNonPositive s.pc d :: s.log))

/-- R26, R37: a step changes RAM only in the aligned word that a store addresses in RAM. -/
def Obligations.RamChangedOnlyByStores : Prop :=
  ∀ (i : Instr) (s t : State) (k : Nat), exec i s = .next t → t.ram.read k ≠ s.ram.read k →
    ∃ a b off, (i = .stw a b off ∨ i = .stb a b off) ∧ (s.effectiveAddress b off).toNat < s.params.memSize ∧
      k / 4 = (s.effectiveAddress b off).toNat / 4

/-! ### Operands -/

/-- R58, R94: a register operand is the register; an immediate has a high half of zeros, or of ones when `v` is set;
the effective address is the base plus the signed offset, modulo 2^32. -/
def Obligations.OperandAssembly : Prop :=
  ∀ (s : State) (b c : Reg) (value : BitVec 16) (off : BitVec 20),
    s.operand (.reg c) = s.reg c ∧ (s.operand (.imm false value)).toNat = value.toNat ∧
    (s.operand (.imm true value)).toNat = 0xFFFF0000 + value.toNat ∧
    ((s.effectiveAddress b off).toNat : Int) = ((s.reg b).toNat + off.toInt) % 2 ^ 32

/-! ### MOV (R69 to R72) -/

/-- R69, R70, R72: MOV writes its operand, MOVU the immediate times 2^16, MOVH the unchanged `H`; nothing but the
destination, `Z` and `N` changes. -/
def Obligations.MoveResults : Prop :=
  ∀ (a : Reg) (c : Operand) (value : BitVec 16) (s : State),
    (∃ t, exec (.mov a c) s = .next t ∧ t.reg a = s.operand c ∧ RegisterWrite s t a ∧ SameCV s t ∧ t.h = s.h) ∧
    (∃ t, exec (.movu a value) s = .next t ∧ (t.reg a).toNat = value.toNat * 65536 ∧
      RegisterWrite s t a ∧ SameCV s t ∧ t.h = s.h) ∧
    (∃ t, exec (.movh a) s = .next t ∧ t.reg a = s.h ∧ RegisterWrite s t a ∧ SameCV s t ∧ t.h = s.h)

/-- R71, R24: MOVF writes the packed flags word of the flags before it; afterwards `N` is unchanged, and `Z` is clear
when the tag is not zero. -/
def Obligations.MovfWritesFlagsWord : Prop :=
  ∀ (a : Reg) (s : State), ∃ t, exec (.movf a) s = .next t ∧
    (t.reg a).getLsbD 31 = s.flagN ∧ (t.reg a).getLsbD 30 = s.flagZ ∧ (t.reg a).getLsbD 29 = s.flagC ∧
    (t.reg a).getLsbD 28 = s.flagV ∧ (t.reg a).toNat % 2 ^ 28 = s.params.flagsTag.toNat ∧
    t.flagN = s.flagN ∧ (s.params.flagsTag ≠ 0#28 → t.flagZ = false) ∧
    RegisterWrite s t a ∧ SameCV s t ∧ t.h = s.h

/-- R67: NOP changes nothing, and LDI, one or two instructions, leaves its 32-bit constant in its register; `Z` and `N`
describe it and nothing else changes. -/
def Obligations.PseudoInstructions : Prop :=
  ∀ (a : Reg) (k : Word) (s : State),
    encode nopInstr = 0xCF000000#32 ∧ exec nopInstr s = .next s ∧
    encode retInstr = 0xC700000F#32 ∧ exec retInstr s = .next { s with pc := s.reg 15#4 >>> 2 } ∧
    ((∃ i t, ldiInstrs a k = [i] ∧ exec i s = .next t ∧
        t.reg a = k ∧ RegisterWrite s t a ∧ SameCV s t ∧ t.h = s.h) ∨
      ∃ i j u t, ldiInstrs a k = [i, j] ∧ exec i s = .next u ∧ exec j u = .next t ∧
        t.reg a = k ∧ RegisterWrite s t a ∧ SameCV s t ∧ t.h = s.h)

/-! ### Shifts and logic (R73 to R79) -/

/-- R73, R74, R75: the amount is the operand modulo 32; LSL multiplies, ASR divides rounding down, ROR rotates. -/
def Obligations.ShiftResults : Prop :=
  ∀ (a b : Reg) (c : Operand) (s : State),
    (∃ t, exec (.lsl a b c) s = .next t ∧
      (t.reg a).toNat = (s.reg b).toNat * 2 ^ ((s.operand c).toNat % 32) % 2 ^ 32 ∧
      RegisterWrite s t a ∧ SameCV s t ∧ t.h = s.h) ∧
    (∃ t, exec (.asr a b c) s = .next t ∧
      (t.reg a).toInt = (s.reg b).toInt / 2 ^ ((s.operand c).toNat % 32) ∧
      RegisterWrite s t a ∧ SameCV s t ∧ t.h = s.h) ∧
    (∃ t, exec (.ror a b c) s = .next t ∧
      (∀ k, k < 32 → (t.reg a).getLsbD k = (s.reg b).getLsbD ((k + (s.operand c).toNat) % 32)) ∧
      RegisterWrite s t a ∧ SameCV s t ∧ t.h = s.h)

/-- R76 to R79: AND, ANN, IOR and XOR, bit by bit. -/
def Obligations.LogicResults : Prop :=
  ∀ (a b : Reg) (c : Operand) (s : State),
    (∃ t, exec (.and a b c) s = .next t ∧
      (∀ k, (t.reg a).getLsbD k = ((s.reg b).getLsbD k && (s.operand c).getLsbD k)) ∧
      RegisterWrite s t a ∧ SameCV s t ∧ t.h = s.h) ∧
    (∃ t, exec (.ann a b c) s = .next t ∧
      (∀ k, (t.reg a).getLsbD k = ((s.reg b).getLsbD k && !(s.operand c).getLsbD k)) ∧
      RegisterWrite s t a ∧ SameCV s t ∧ t.h = s.h) ∧
    (∃ t, exec (.ior a b c) s = .next t ∧
      (∀ k, (t.reg a).getLsbD k = ((s.reg b).getLsbD k || (s.operand c).getLsbD k)) ∧
      RegisterWrite s t a ∧ SameCV s t ∧ t.h = s.h) ∧
    (∃ t, exec (.xor a b c) s = .next t ∧
      (∀ k, (t.reg a).getLsbD k = ((s.reg b).getLsbD k != (s.operand c).getLsbD k)) ∧
      RegisterWrite s t a ∧ SameCV s t ∧ t.h = s.h)

/-! ### Add, subtract, multiply, divide (R80 to R83) -/

/-- R80: ADD wraps; `C` is the unsigned overflow and `V` the signed overflow, whatever `C` was before. -/
def Obligations.AddResult : Prop :=
  ∀ (a b : Reg) (c : Operand) (s : State), ∃ t, exec (.add a b c) s = .next t ∧
    (t.reg a).toNat = ((s.reg b).toNat + (s.operand c).toNat) % 2 ^ 32 ∧
    (t.flagC = true ↔ 2 ^ 32 ≤ (s.reg b).toNat + (s.operand c).toNat) ∧
    (t.flagV = true ↔ (t.reg a).toInt ≠ (s.reg b).toInt + (s.operand c).toInt) ∧
    RegisterWrite s t a ∧ t.h = s.h

/-- R81: SUB wraps; `C` is the borrow and `V` the signed overflow, whatever `C` was before. -/
def Obligations.SubResult : Prop :=
  ∀ (a b : Reg) (c : Operand) (s : State), ∃ t, exec (.sub a b c) s = .next t ∧
    ((t.reg a).toNat : Int) = ((s.reg b).toNat - (s.operand c).toNat : Int) % 2 ^ 32 ∧
    (t.flagC = true ↔ (s.reg b).toNat < (s.operand c).toNat) ∧
    (t.flagV = true ↔ (t.reg a).toInt ≠ (s.reg b).toInt - (s.operand c).toInt) ∧
    RegisterWrite s t a ∧ t.h = s.h

/-- R82: `H` and the destination hold the exact 64-bit product, signed for MUL and unsigned for MULU. -/
def Obligations.MulResults : Prop :=
  ∀ (a b : Reg) (c : Operand) (s : State),
    (∃ t, exec (.mul a b c) s = .next t ∧
      t.h.toInt * 2 ^ 32 + (t.reg a).toNat = (s.reg b).toInt * (s.operand c).toInt ∧
      RegisterWrite s t a ∧ SameCV s t) ∧
    (∃ t, exec (.mulu a b c) s = .next t ∧
      t.h.toNat * 2 ^ 32 + (t.reg a).toNat = (s.reg b).toNat * (s.operand c).toNat ∧
      RegisterWrite s t a ∧ SameCV s t)

/-- R83: for a positive divisor the destination is the floor quotient and `H` the remainder in `[0, divisor)`. -/
def Obligations.DivFloors : Prop :=
  ∀ (a b : Reg) (c : Operand) (s : State), 0 < (s.operand c).toInt → ∃ t, exec (.div a b c) s = .next t ∧
    (s.operand c).toInt * (t.reg a).toInt + t.h.toInt = (s.reg b).toInt ∧
    0 ≤ t.h.toInt ∧ t.h.toInt < (s.operand c).toInt ∧ RegisterWrite s t a ∧ SameCV s t

/-- R83, R110: for a divisor that is not positive, DIV logs its own index and the divisor and changes nothing else. -/
def Obligations.DivNonPositiveOnlyLogs : Prop :=
  ∀ (a b : Reg) (c : Operand) (s : State), (s.operand c).toInt ≤ 0 →
    exec (.div a b c) s = .next { s with log := .divNonPositive (s.pc - 1#32) (s.operand c) :: s.log }

/-! ### Floating point (R85 to R93) -/

/-- R87, R89, R91, R92, R93: each floating-point instruction writes its unit's result through the write path, and
`C`, `V` and `H` do not change. -/
def Obligations.FloatInstructionsWriteResult : Prop :=
  ∀ (a b : Reg) (u v : Bool) (c : Operand) (s : State),
    (∃ t, exec (.fad a b u v c) s = .next t ∧ t.reg a = floatAdd u v (s.reg b) (s.operand c) ∧
      RegisterWrite s t a ∧ SameCV s t ∧ t.h = s.h) ∧
    (∃ t, exec (.fsb a b u v c) s = .next t ∧ t.reg a = floatAdd u v (s.reg b) (s.operand c ^^^ 0x80000000#32) ∧
      RegisterWrite s t a ∧ SameCV s t ∧ t.h = s.h) ∧
    (∃ t, exec (.fml a b c) s = .next t ∧ t.reg a = floatMul (s.reg b) (s.operand c) ∧
      RegisterWrite s t a ∧ SameCV s t ∧ t.h = s.h) ∧
    (∃ t, exec (.fdv a b c) s = .next t ∧ t.reg a = floatDiv (s.reg b) (s.operand c) ∧
      RegisterWrite s t a ∧ SameCV s t ∧ t.h = s.h)

/-- R87: with `v = 0` a left zero of either sign gives the right operand, or 0 in FLT, and a right zero gives the left
operand. -/
def Obligations.FloatAddZeroShortCircuits : Prop :=
  ∀ (u : Bool) (x y : Word),
    (x.toNat % 2 ^ 31 = 0 → floatAdd u false x y = if u then 0#32 else y) ∧
    (x.toNat % 2 ^ 31 ≠ 0 → y.toNat % 2 ^ 31 = 0 → floatAdd u false x y = x)

/-- R86, R87: plain FAD is commutative, unless both operands are zeros, and its value on two operands that are not
zeros, the one with the larger exponent first. The sum is of the doubled signed significands, the smaller operand's
floored to the larger exponent; its magnitude is rounded by adding 1 and halving, and shifted left by `k` to bit 24. An
exponent below 0 or above 255 gives +0; else the result has the sum's sign, its exponent (255 included) and the upper 24
bits, the one below truncated. That an exponent of 0 is packed, a negative one with fraction 0 as -0, is R87's
pseudocode against a remark of R93: notes/assumptions/13.md. -/
def Obligations.FloatAddCommutes : Prop :=
  ∀ x y : Word,
    ((x.toNat % 2 ^ 31 ≠ 0 ∨ y.toNat % 2 ^ 31 ≠ 0) → floatAdd false false x y = floatAdd false false y x) ∧
    ∀ (sum : Int) (m k : Nat), x.toNat % 2 ^ 31 ≠ 0 → y.toNat % 2 ^ 31 ≠ 0 → floatExp y ≤ floatExp x →
      sum = signedMag (floatSign x) (2 * floatMant x) +
        signedMag (floatSign y) (2 * floatMant y) / 2 ^ (floatExp x - floatExp y) →
      m = (sum.natAbs + 1) / 2 →
      m < 2 ^ 25 ∧ (m = 0 → floatAdd false false x y = 0#32) ∧
      (2 ^ 24 ≤ m * 2 ^ k → m * 2 ^ k < 2 ^ 25 →
        (floatExp x + 1 < k ∨ 256 + k ≤ floatExp x + 1 → floatAdd false false x y = 0#32) ∧
        (k ≤ floatExp x + 1 → floatExp x + 1 < 256 + k →
          (floatSign (floatAdd false false x y) = true ↔ sum < 0) ∧
          floatExp (floatAdd false false x y) + k = floatExp x + 1 ∧
          floatMant (floatAdd false false x y) = m * 2 ^ k / 2))

/-- R87, R89: a non-zero float plus its negation, and minus itself, is +0. -/
def Obligations.FloatCancellationIsZero : Prop :=
  ∀ x : Word, x.toNat % 2 ^ 31 ≠ 0 →
    floatAdd false false x (x ^^^ 0x80000000#32) = 0#32 ∧ floatSub false false x x = 0#32

/-- R88: FLT with 0x4B000000 gives the exact float of every integer in `[-2^23, 2^23)`. -/
def Obligations.FltConvertsExactly : Prop :=
  ∀ (a b k : Reg) (s : State) (n : Int), s.reg k = 0x4B000000#32 → -(2 ^ 23) ≤ n → n < 2 ^ 23 →
    s.reg b = BitVec.ofInt 32 n →
    ∃ t, exec (.fad a b true false (.reg k)) s = .next t ∧
      (n = 0 → t.reg a = 0#32) ∧ (n ≠ 0 → FloatIsInt (t.reg a) n)

/-- R87, R88: FLOOR with 0x4B000000 gives the floor of every float whose exponent field is at most 150. A zero
significand is read with its implicit 1, so -0 gives -1 as R87's pseudocode computes it; notes/assumptions/13.md. -/
def Obligations.FloorConvertsExactly : Prop :=
  ∀ (a b k : Reg) (s : State), s.reg k = 0x4B000000#32 → floatExp (s.reg b) ≤ 150 →
    ∃ t, exec (.fad a b false true (.reg k)) s = .next t ∧
      (t.reg a).toInt =
        signedMag (floatSign (s.reg b)) (floatMant (s.reg b)) / 2 ^ (150 - floatExp (s.reg b))

/-- R90, R91: FML of an operand whose exponent field is 0 is +0. Else the exact product of the significands rounds to
one at or above 2^47, which adds 1 to the exponent, or not; with the sum of the exponent fields this decides between
saturating, flushing to +0, and the product rounded to nearest, ties up, with exponent fields up to 255. What is not
flushed has the exclusive-or of the signs. -/
def Obligations.FloatMulRounds : Prop :=
  ∀ x y : Word,
    (floatExp x = 0 ∨ floatExp y = 0 → floatMul x y = 0#32) ∧
    ∀ (e m : Nat), floatExp x ≠ 0 → floatExp y ≠ 0 → e = floatExp x + floatExp y → m = floatMant x * floatMant y →
      (383 ≤ e ∨ e = 382 ∧ 2 ^ 47 ≤ m + 2 ^ 22 → (floatMul x y).toNat % 2 ^ 31 = 0x7FFFFFFF) ∧
      (e ≤ 126 ∨ e = 127 ∧ m + 2 ^ 22 < 2 ^ 47 → floatMul x y = 0#32) ∧
      (128 ≤ e ∨ e = 127 ∧ 2 ^ 47 ≤ m + 2 ^ 22 →
        floatSign (floatMul x y) = (floatSign x).xor (floatSign y) ∧
        (e ≤ 381 ∨ e = 382 ∧ m + 2 ^ 22 < 2 ^ 47 →
          ∃ k, k = (if 2 ^ 47 ≤ m + 2 ^ 22 then 24 else 23) ∧ floatExp (floatMul x y) + 150 = e + k ∧
            2 * (floatMant (floatMul x y) * 2 ^ k) ≤ 2 * m + 2 ^ k ∧
            2 * m < 2 * (floatMant (floatMul x y) * 2 ^ k) + 2 ^ k))

/-- R90, R92: FDV of a dividend whose exponent field is 0 is +0, and else of such a divisor the largest magnitude with
the exclusive-or of the signs. Else the dividend's significand is at least the divisor's, which adds 1 to the exponent,
or not; with the difference of the exponent fields this decides between saturating, flushing to +0, and the quotient
rounded to nearest, ties up, with exponent fields up to 255. What is not flushed has the exclusive-or of the signs. -/
def Obligations.FloatDivRounds : Prop :=
  ∀ x y : Word,
    (floatExp x = 0 → floatDiv x y = 0#32) ∧
    (floatExp x ≠ 0 → floatExp y = 0 →
      (floatDiv x y).toNat = (if x.getLsbD 31 = y.getLsbD 31 then 0 else 2 ^ 31) + 0x7FFFFFFF) ∧
    ∀ e : Int, floatExp x ≠ 0 → floatExp y ≠ 0 → e = floatExp x - floatExp y →
      (130 ≤ e ∨ e = 129 ∧ floatMant y ≤ floatMant x → (floatDiv x y).toNat % 2 ^ 31 = 0x7FFFFFFF) ∧
      (e ≤ -127 ∨ e = -126 ∧ floatMant x < floatMant y → floatDiv x y = 0#32) ∧
      (-125 ≤ e ∨ e = -126 ∧ floatMant y ≤ floatMant x →
        floatSign (floatDiv x y) = (floatSign x).xor (floatSign y) ∧
        (e ≤ 128 ∨ e = 129 ∧ floatMant x < floatMant y →
          ∃ k : Nat, k = (if floatMant y ≤ floatMant x then 23 else 24) ∧ floatExp (floatDiv x y) + k = e + 150 ∧
            2 * (floatMant (floatDiv x y) * floatMant y) ≤ 2 * (floatMant x * 2 ^ k) + floatMant y ∧
            2 * (floatMant x * 2 ^ k) < 2 * (floatMant (floatDiv x y) * floatMant y) + floatMant y))

/-! ### Loads and stores (R94 to R99, R34 to R41) -/

/-- R96: LDW outside MMIO: RAM and ROM give the aligned word, an address in no region gives 0; only the destination,
`Z` and `N` change. -/
def Obligations.LoadWordResult : Prop :=
  ∀ (a b : Reg) (off : BitVec 20) (s : State) (ea : Nat), s.params.wf → (s.effectiveAddress b off).toNat = ea →
    ea < s.params.ioStart →
    ∃ t, exec (.ldw a b off) s = .next t ∧
      t.reg a = (if ea < s.params.memSize then s.ram.readWord (ea - ea % 4)
        else if s.params.romStart ≤ ea ∧ ea < s.params.romStart + 4 * s.params.romWords then
          s.rom.readWord (ea - ea % 4)
        else 0#32) ∧
      RegisterWrite s t a ∧ SameCV s t ∧ t.h = s.h

/-- R97, R38, R40: LDB outside MMIO gives the byte at its address, zero-extended, or 0 for an address in no region. -/
def Obligations.LoadByteResult : Prop :=
  ∀ (a b : Reg) (off : BitVec 20) (s : State) (ea : Nat), s.params.wf → (s.effectiveAddress b off).toNat = ea →
    ea < s.params.ioStart →
    ∃ t, exec (.ldb a b off) s = .next t ∧
      (t.reg a).toNat = (if ea < s.params.memSize then (s.ram.read ea).toNat
        else if s.params.romStart ≤ ea ∧ ea < s.params.romStart + 4 * s.params.romWords then (s.rom.read ea).toNat
        else 0) ∧
      t.flagN = false ∧ RegisterWrite s t a ∧ SameCV s t ∧ t.h = s.h

/-- R98, R37: STW to RAM writes the aligned word that holds its address and no other byte, changes no register, flag
or pc, and besides RAM changes only the damage rectangle, that only in the display region. -/
def Obligations.StoreWordToRam : Prop :=
  ∀ (a b : Reg) (off : BitVec 20) (s : State) (ea : Nat), s.ram.wf → (s.effectiveAddress b off).toNat = ea →
    ea < s.params.memSize →
    ∃ t, exec (.stw a b off) s = .next t ∧
      t.ram.readWord (ea - ea % 4) = s.reg a ∧
      (∀ k, k < ea - ea % 4 ∨ ea - ea % 4 + 4 ≤ k → t.ram.read k = s.ram.read k) ∧
      (ea < s.params.displayStart → t.damage = s.damage) ∧
      AllRegsSame s t ∧ SameFlags s t ∧ t.h = s.h ∧ t.pc = s.pc ∧ t.rom = s.rom ∧
      SameDevices s { t with damage := s.damage }

/-- R99, R39: STB to RAM writes the byte at its address, the low byte of its source, and no other byte. -/
def Obligations.StoreByteToRam : Prop :=
  ∀ (a b : Reg) (off : BitVec 20) (s : State) (ea : Nat), s.ram.wf → (s.effectiveAddress b off).toNat = ea →
    ea < s.params.memSize →
    ∃ t, exec (.stb a b off) s = .next t ∧
      (t.ram.read ea).toNat = (s.reg a).toNat % 256 ∧ (∀ k, k ≠ ea → t.ram.read k = s.ram.read k) ∧
      (ea < s.params.displayStart → t.damage = s.damage) ∧
      AllRegsSame s t ∧ SameFlags s t ∧ t.h = s.h ∧ t.pc = s.pc ∧ t.rom = s.rom ∧
      SameDevices s { t with damage := s.damage }

/-- R37, R39: a store to ROM outside MMIO, or to no region, has no effect. -/
def Obligations.StoreOutsideRamIgnored : Prop :=
  ∀ (a b : Reg) (off : BitVec 20) (s : State), s.params.memSize ≤ (s.effectiveAddress b off).toNat →
    (s.effectiveAddress b off).toNat < s.params.ioStart →
    exec (.stw a b off) s = .next s ∧ exec (.stb a b off) s = .next s

/-- R40, R51: in RAM, a byte loaded after a word store is that word's byte, a word loaded after a byte store has only
that byte replaced, and the next fetch of a stored word sees it. -/
def Obligations.StoreThenLoad : Prop :=
  ∀ (s : State) (a b : Word) (v : Word) (x : Byte), s.params.wf → s.ram.wf → a.toNat < s.params.memSize →
    a.toNat / 4 = b.toNat / 4 →
    ((s.storeWord a v).loadWord b).2 = v ∧
    ((s.storeWord a v).loadByte b).2 = v.extractLsb' (8 * (b.toNat % 4)) 8 ∧
    (∀ k, k < 32 → (((s.storeByte a x).loadWord b).2).getLsbD k =
      if k / 8 = a.toNat % 4 then x.getLsbD (k % 8) else ((s.loadWord b).2).getLsbD k) ∧
    ({ s.storeWord a v with pc := b >>> 2 } : State).fetch = some v

/-- R44, R45, R46: `consumeDamage()` answers the rectangle and leaves the empty one, and nothing else changes. A store,
of a word or a byte, into the display region makes the rectangle the smallest one that
holds the old one and the word's column and row, or leaves it when the row is beyond the framebuffer; after
`consumeDamage()` it makes the rectangle exactly that point. -/
def Obligations.DisplayStoreMarksDamage : Prop :=
  ∀ s : State,
    s.consumeDamage = (s.damage, { s with damage := ⟨s.params.fbWidth, s.params.fbHeight, 0, 0⟩ }) ∧
    ∀ (a b : Reg) (off : BitVec 20) (ea row col : Nat), s.params.wf →
      (s.effectiveAddress b off).toNat = ea → s.params.displayStart ≤ ea → ea < s.params.memSize →
      col < s.params.fbWidth → row * s.params.fbWidth + col = (ea - s.params.displayStart) / 4 →
      ∃ t u v, exec (.stw a b off) s = .next t ∧ exec (.stb a b off) s = .next u ∧
        exec (.stw a b off) s.consumeDamage.2 = .next v ∧
        (row < s.params.fbHeight →
          t.damage = ⟨min s.damage.x1 col, min s.damage.y1 row, max s.damage.x2 col, max s.damage.y2 row⟩ ∧
          u.damage = t.damage ∧ v.damage = ⟨col, row, col, row⟩) ∧
        (s.params.fbHeight ≤ row → t.damage = s.damage ∧ u.damage = s.damage)

/-! ### MMIO (R120 to R131) -/

/-- R123, R124, R126, R127, R128, R121: LDW of the MMIO registers inside the bus, by offset, each with its side effect
and no other. -/
def Obligations.MmioWordLoads : Prop :=
  ∀ (a b : Reg) (off : BitVec 20) (s : State) (k : Nat), s.params.wf →
    (s.effectiveAddress b off).toNat = s.params.ioStart + k →
    (k = 0 → exec (.ldw a b off) s = .next { s.writeReg a s.timer with progress := s.progress - 1 }) ∧
    (k = 4 → exec (.ldw a b off) s = .next (s.writeReg a s.switches)) ∧
    (k = 20 → exec (.ldw a b off) s = .next (s.writeReg a 1#32)) ∧
    (k = 24 → s.keys = [] → exec (.ldw a b off) s = .next { s.writeReg a s.mouse with progress := s.progress - 1 }) ∧
    (k = 24 → s.keys ≠ [] → exec (.ldw a b off) s = .next (s.writeReg a (s.mouse ||| 0x10000000#32))) ∧
    (k = 28 → s.keys = [] → exec (.ldw a b off) s = .next (s.writeReg a 0#32)) ∧
    (∀ x rest, k = 28 → s.keys = x :: rest →
      exec (.ldw a b off) s = .next { s.writeReg a (BitVec.ofNat 32 x.toNat) with keys := rest }) ∧
    (k ∉ [0, 4, 8, 12, 16, 20, 24, 28, 40, 44] → exec (.ldw a b off) s = .next (s.writeReg a 0#32))

/-- R125, R126, R129, R131: LDW of a device register is one oracle call to the attached device, whose word is the
environment's, or gives 0, on an SPI slot 255, when none is attached. -/
def Obligations.DeviceWordLoads : Prop :=
  ∀ (a b : Reg) (off : BitVec 20) (s : State) (k : Nat) (port : Config.DevicePort), s.params.wf →
    (s.effectiveAddress b off).toNat = s.params.ioStart + k →
    (k, port) ∈ [(8, .serialData), (12, .serialStatus), (16, .spiData s.spiSelected), (40, .clipboardControl),
      (44, .clipboardData)] →
    (s.attached port = true → exec (.ldw a b off) s = .next
      { s.writeReg a (Config.deviceAnswer port s.deviceCalls s.deviceTick) with
        deviceCalls := .read port (Config.deviceAnswer port s.deviceCalls s.deviceTick) :: s.deviceCalls
        deviceTick := s.deviceTick + 1 }) ∧
    (s.attached port = false →
      exec (.ldw a b off) s = .next (s.writeReg a (if k = 16 then 255#32 else 0#32)))

/-- R122 to R129: STW to MMIO writes the LEDs or the SPI selection, delivers one word to an attached device, or is
ignored. -/
def Obligations.MmioWordStores : Prop :=
  ∀ (a b : Reg) (off : BitVec 20) (s : State) (k : Nat), s.params.wf →
    (s.effectiveAddress b off).toNat = s.params.ioStart + k →
    (k = 4 → exec (.stw a b off) s = .next { s with leds := s.reg a }) ∧
    (k = 20 → exec (.stw a b off) s = .next { s with spiSelected := BitVec.ofNat 2 ((s.reg a).toNat % 4) }) ∧
    (∀ port, (k, port) ∈ [(8, .serialData), (16, .spiData s.spiSelected), (40, .clipboardControl),
        (44, .clipboardData)] →
      exec (.stw a b off) s = .next (if s.attached port then
        { s with deviceCalls := .write port (s.reg a) :: s.deviceCalls } else s)) ∧
    (k ∉ [4, 8, 16, 20, 40, 44] → exec (.stw a b off) s = .next s)

/-- R38, R39: in MMIO, LDB makes the read that LDW makes and gives the lane of its address, which is byte 0 at an
aligned address and 0 at any other, with `N` clear and `Z` from that byte; STB makes the write that STW makes, of the zero-extended low byte. -/
def Obligations.MmioByteAccess : Prop :=
  ∀ (a b : Reg) (off : BitVec 20) (s : State), s.params.wf →
    s.params.ioStart ≤ (s.effectiveAddress b off).toNat →
    (∃ t u, exec (.ldw a b off) s = .next t ∧ exec (.ldb a b off) s = .next u ∧
      (u.reg a).toNat = (if (s.effectiveAddress b off).toNat % 4 = 0 then (t.reg a).toNat % 256 else 0) ∧
      u.flagN = false ∧ SignZeroOf u (u.reg a) ∧
      u = { t with regs := u.regs, flagN := u.flagN, flagZ := u.flagZ } ∧ OtherRegsSame t u a) ∧
    exec (.stb a b off) s =
      .next (s.storeWord (s.effectiveAddress b off) (BitVec.ofNat 32 ((s.reg a).toNat % 256)))

/-! ### Host inputs (R128, R127, R139) -/

/-- R128, R127, R139: a pushed key is read after every key queued before it, and dropped when the queue is full;
`setMouse` puts `x` in bits 11:0, `y` in bits 23:12, the buttons in bits 26:24 and zeros above. -/
def Obligations.HostInputsArrive : Prop :=
  ∀ (s : State) (b : Byte) (x y buttons : Word),
    (s.keys.length < s.params.keyQueueCap → s.pushKey b = { s with keys := s.keys ++ [b] }) ∧
    (s.params.keyQueueCap ≤ s.keys.length → s.pushKey b = s) ∧
    (s.setMouse x y buttons).mouse.toNat =
      x.toNat % 2 ^ 12 + y.toNat % 2 ^ 12 * 2 ^ 12 + buttons.toNat % 2 ^ 3 * 2 ^ 24 ∧
    s.setMouse x y buttons = { s with mouse := (s.setMouse x y buttons).mouse }

/-! ### Branches (R63, R100 to R106) -/

/-- R100, R63: the sixteen conditions, and a branch that is not taken changes nothing. -/
def Obligations.BranchConditions : Prop :=
  ∀ (s : State) (inv : Bool) (cond : Cond) (c : Reg) (off : BitVec 24),
    (s.takes false .mi ↔ s.flagN) ∧ (s.takes false .eq ↔ s.flagZ) ∧ (s.takes false .cs ↔ s.flagC) ∧
    (s.takes false .vs ↔ s.flagV) ∧ (s.takes false .ls ↔ s.flagC ∨ s.flagZ) ∧
    (s.takes false .lt ↔ s.flagN ≠ s.flagV) ∧ (s.takes false .le ↔ s.flagN ≠ s.flagV ∨ s.flagZ) ∧
    s.takes false .always ∧ (s.takes true cond ↔ ¬ s.takes false cond) ∧
    (¬ s.takes inv cond → exec (.bReg inv cond c) s = .next s ∧ exec (.blReg inv cond c) s = .next s ∧
      exec (.bOff inv cond off) s = .next s ∧ exec (.blOff inv cond off) s = .next s)

/-- R63, R81: after SUB, CS, LS, HI and CC compare the operands unsigned, LT, LE, GE and GT compare them signed, EQ and
NE compare them for equality. -/
def Obligations.ConditionsAfterSubCompare : Prop :=
  ∀ (a b : Reg) (c : Operand) (s t : State), exec (.sub a b c) s = .next t →
    (t.takes false .cs ↔ (s.reg b).toNat < (s.operand c).toNat) ∧
    (t.takes false .ls ↔ (s.reg b).toNat ≤ (s.operand c).toNat) ∧
    (t.takes true .ls ↔ (s.operand c).toNat < (s.reg b).toNat) ∧
    (t.takes true .cs ↔ (s.operand c).toNat ≤ (s.reg b).toNat) ∧
    (t.takes false .lt ↔ (s.reg b).toInt < (s.operand c).toInt) ∧
    (t.takes false .le ↔ (s.reg b).toInt ≤ (s.operand c).toInt) ∧
    (t.takes true .lt ↔ (s.operand c).toInt ≤ (s.reg b).toInt) ∧
    (t.takes true .le ↔ (s.operand c).toInt < (s.reg b).toInt) ∧
    (t.takes false .eq ↔ s.reg b = s.operand c) ∧ (t.takes true .eq ↔ s.reg b ≠ s.operand c)

/-- R103, R105: a taken B adds the signed offset to the incremented pc, modulo 2^32, or goes to a quarter of the
register's value, unsigned; nothing else changes, and nothing at all when it is not taken. -/
def Obligations.BranchResults : Prop :=
  ∀ (inv : Bool) (cond : Cond) (off : BitVec 24) (c : Reg) (s : State),
    (∃ t, exec (.bOff inv cond off) s = .next t ∧ t = { s with pc := t.pc } ∧
      (s.takes inv cond → (t.pc.toNat : Int) = (s.pc.toNat + off.toInt) % 2 ^ 32) ∧
      (¬ s.takes inv cond → t = s)) ∧
    (∃ t, exec (.bReg inv cond c) s = .next t ∧ t = { s with pc := t.pc } ∧
      (s.takes inv cond → t.pc.toNat = (s.reg c).toNat / 4) ∧ (¬ s.takes inv cond → t = s))

/-- R101, R104, R106: a taken BL writes four times the incremented pc to x[15] through the write path, then adds the
offset to the pc, or reads the target register, which for R15 is the new link; an untaken one changes nothing. -/
def Obligations.BranchLinkResults : Prop :=
  ∀ (inv : Bool) (cond : Cond) (off : BitVec 24) (c : Reg) (s : State),
    ∃ t u, exec (.blOff inv cond off) s = .next t ∧ exec (.blReg inv cond c) s = .next u ∧
    (s.takes inv cond →
      (t.pc.toNat : Int) = (s.pc.toNat + off.toInt) % 2 ^ 32 ∧
      u.pc.toNat = (if c = 15#4 then (4 * s.pc.toNat % 2 ^ 32) / 4 else (s.reg c).toNat / 4) ∧
      ∀ w, w = t ∨ w = u → (w.reg 15#4).toNat = 4 * s.pc.toNat % 2 ^ 32 ∧
        OtherRegsSame s w 15#4 ∧ SignZeroOf w (w.reg 15#4) ∧ SameCV s w ∧ w.h = s.h ∧ SameMemory s w ∧
        SameDevices s w) ∧
    (¬ s.takes inv cond → t = s ∧ u = s)

/-- R101: B R15 after a call returns to the word after the call, for every pc that is the index of a word of the
32-bit byte space. -/
def Obligations.ReturnUndoesCall : Prop :=
  ∀ (off : BitVec 24) (s t u : State), s.pc.toNat < 2 ^ 30 → exec (.blOff false .always off) s = .next t →
    exec (.bReg false .always 15#4) t = .next u → u.pc = s.pc

/-- R15: the write path sets the register, `Z` and `N`, and nothing else. -/
def Obligations.WritePathSetsSignZero : Prop :=
  ∀ (s : State) (i : Reg) (v : Word), (s.writeReg i v).reg i = v ∧ RegisterWrite s (s.writeReg i v) i ∧
    SameCV s (s.writeReg i v) ∧ (s.writeReg i v).h = s.h

end
end

