-- ==== Sys2Proof/Laws/Memory.lean ====
section
/-! SUPPORT. What the operations on one memory do: read after write, and the canonical form. -/

namespace Sys2Proof.Machine

/-! ### One byte -/

theorem unlistedByte_eq : unlistedByte = 0#8 := rfl

/-- The empty memory is in canonical form. -/
theorem wf_nil : Memory.wf [] := ⟨List.Pairwise.nil, by simp⟩

@[simp] theorem read_nil (a : Nat) : Memory.read [] a = unlistedByte := rfl

theorem read_cons (k : Nat) (b : Byte) (m : Memory) (a : Nat) :
    Memory.read ((k, b) :: m) a = if k = a then b else Memory.read m a := rfl

/-- A write leaves every other address as it was, in any list. -/
theorem read_write_other (m : Memory) {a c : Nat} (v : Byte) (h : c ≠ a) : (m.write a v).read c = m.read c := by
  induction m with
  | nil => by_cases hv : v = unlistedByte <;> simp [Memory.write, Memory.read, hv, h.symm]
  | cons p m ih =>
    obtain ⟨k, b⟩ := p
    simp only [Memory.write]
    split
    · split <;> simp [Memory.read, h.symm]
    · split
      · subst_vars; split <;> simp [Memory.read, h.symm]
      · simp [Memory.read, ih]

/-- An address below every listed one is unlisted. -/
theorem read_below (m : Memory) (a : Nat) (h : ∀ p ∈ m, a < p.1) : m.read a = unlistedByte := by
  induction m with
  | nil => rfl
  | cons p m ih =>
    have hp := h p (by simp)
    rw [read_cons, if_neg (by omega), ih (fun q hq => h q (by simp [hq]))]

/-- In canonical form, the byte written is the byte read. -/
theorem read_write_same (m : Memory) (hm : m.wf) (a : Nat) (v : Byte) : (m.write a v).read a = v := by
  induction m with
  | nil => by_cases hv : v = unlistedByte <;> simp [Memory.write, Memory.read, hv]
  | cons p m ih =>
    obtain ⟨k, b⟩ := p
    obtain ⟨hs, hz⟩ := hm
    rw [List.pairwise_cons] at hs
    simp only [Memory.write]
    split
    · rename_i hlt
      by_cases hv : v = unlistedByte
      · rw [if_pos hv, read_cons, if_neg (by omega), read_below m a fun q hq => by have := hs.1 q hq; omega, hv]
      · simp [Memory.read, hv]
    · split
      · rename_i heq
        subst heq
        by_cases hv : v = unlistedByte
        · rw [if_pos hv, read_below m a fun q hq => hs.1 q hq, hv]
        · simp [Memory.read, hv]
      · rename_i hne
        rw [read_cons, if_neg (fun h => hne h.symm), ih ⟨hs.2, fun q hq => hz q (by simp [hq])⟩]

/-- Every entry after a write was there before or is the byte written. -/
theorem mem_write (m : Memory) (a : Nat) (v : Byte) (p : Host.Cell) (h : p ∈ m.write a v) :
    p ∈ m ∨ (p = (a, v) ∧ v ≠ unlistedByte) := by
  induction m with
  | nil => by_cases hv : v = unlistedByte <;> simp_all [Memory.write]
  | cons q m ih =>
    obtain ⟨k, b⟩ := q
    simp only [Memory.write] at h
    split at h
    · split at h <;> simp_all
      tauto
    · split at h
      · split at h <;> simp_all
        tauto
      · simp only [List.mem_cons] at h ⊢
        rcases h with h | h
        · exact .inl (.inl h)
        · rcases ih h with h' | h'
          · exact .inl (.inr h')
          · exact .inr h'

/-- A write keeps the canonical form. -/
theorem write_wf (m : Memory) (hm : m.wf) (a : Nat) (v : Byte) : (m.write a v).wf := by
  refine ⟨?_, fun p hp => ?_⟩
  · induction m with
    | nil => by_cases hv : v = unlistedByte <;> simp [Memory.write, hv]
    | cons q m ih =>
      obtain ⟨k, b⟩ := q
      obtain ⟨hs, hz⟩ := hm
      rw [List.pairwise_cons] at hs
      simp only [Memory.write]
      split
      · rename_i hlt
        split
        · exact List.pairwise_cons.2 hs
        · refine List.pairwise_cons.2 ⟨fun p hp => ?_, List.pairwise_cons.2 hs⟩
          rcases List.mem_cons.1 hp with rfl | hp
          · exact hlt
          · exact Nat.lt_trans hlt (hs.1 p hp)
      · split
        · rename_i heq
          subst heq
          split
          · exact hs.2
          · exact List.pairwise_cons.2 ⟨fun p hp => hs.1 p hp, hs.2⟩
        · rename_i hge hne
          refine List.pairwise_cons.2 ⟨fun p hp => ?_, ih ⟨hs.2, fun p hp => hz p (by simp [hp])⟩⟩
          rcases mem_write m a v p hp with h | ⟨rfl, -⟩
          · exact hs.1 p h
          · show k < a; omega
  · rcases mem_write m a v p hp with h | ⟨rfl, hv⟩
    · exact hm.2 p h
    · exact hv

/-! ### One word -/

/-- Storing a word leaves every byte outside the word as it was. -/
theorem read_writeWord_other (m : Memory) {base c : Nat} (v : Word) (h : c < base ∨ base + 4 ≤ c) :
    (m.writeWord base v).read c = m.read c := by
  unfold Memory.writeWord
  rw [read_write_other _ _ (by omega), read_write_other _ _ (by omega), read_write_other _ _ (by omega),
    read_write_other _ _ (by omega)]

/-- Storing a word keeps the canonical form. -/
theorem writeWord_wf (m : Memory) (hm : m.wf) (base : Nat) (v : Word) : (m.writeWord base v).wf :=
  write_wf _ (write_wf _ (write_wf _ (write_wf _ hm _ _) _ _) _ _) _ _

/-- Byte `k` of a stored word, in its place (R40). -/
theorem read_writeWord_byte (m : Memory) (hm : m.wf) (base : Nat) (v : Word) (k : Nat) (hk : k < 4) :
    (m.writeWord base v).read (base + k) = v.extractLsb' (8 * k) 8 := by
  unfold Memory.writeWord
  have h1 := write_wf m hm base (v.extractLsb' 0 8)
  have h2 := write_wf _ h1 (base + 1) (v.extractLsb' 8 8)
  have h3 := write_wf _ h2 (base + 2) (v.extractLsb' 16 8)
  obtain rfl | rfl | rfl | rfl : k = 0 ∨ k = 1 ∨ k = 2 ∨ k = 3 := by omega
  · rw [read_write_other _ _ (by omega), read_write_other _ _ (by omega), read_write_other _ _ (by omega)]
    exact read_write_same m hm base _
  · rw [read_write_other _ _ (by omega), read_write_other _ _ (by omega)]
    exact read_write_same _ h1 _ _
  · rw [read_write_other _ _ (by omega)]
    exact read_write_same _ h2 _ _
  · exact read_write_same _ h3 _ _

/-- A word is its four bytes, the first the least significant (R40). -/
theorem word_of_bytes (v : Word) :
    v.extractLsb' 24 8 ++ v.extractLsb' 16 8 ++ v.extractLsb' 8 8 ++ v.extractLsb' 0 8 = v := by
  ext i hi
  simp only [BitVec.getElem_append, BitVec.getElem_extractLsb']
  split
  · simp [BitVec.getLsbD_eq_getElem hi]
  · split
    · rw [show 8 + (i - 8) = i by omega, BitVec.getLsbD_eq_getElem hi]
    · split
      · rw [show 16 + (i - 8 - 8) = i by omega, BitVec.getLsbD_eq_getElem hi]
      · rw [show 24 + (i - 8 - 8 - 8) = i by omega, BitVec.getLsbD_eq_getElem hi]

/-- The word stored is the word read. -/
theorem readWord_writeWord_same (m : Memory) (hm : m.wf) (base : Nat) (v : Word) :
    (m.writeWord base v).readWord base = v := by
  have h k hk := read_writeWord_byte m hm base v k hk
  have h0 : (m.writeWord base v).read base = v.extractLsb' 0 8 := h 0 (by omega)
  unfold Memory.readWord
  rw [h 3 (by omega), h 2 (by omega), h 1 (by omega), h0]
  exact word_of_bytes v

/-- A stored word leaves every word it does not overlap as it was. -/
theorem readWord_writeWord_other (m : Memory) {base c : Nat} (v : Word) (h : c + 4 ≤ base ∨ base + 4 ≤ c) :
    (m.writeWord base v).readWord c = m.readWord c := by
  unfold Memory.readWord
  rw [read_writeWord_other _ _ (by omega), read_writeWord_other _ _ (by omega), read_writeWord_other _ _ (by omega),
    read_writeWord_other _ _ (by omega)]

/-- Byte 0, 1, 2 and 3 of four bytes put together. -/
theorem bytes_of_word (b0 b1 b2 b3 : Byte) :
    (b3 ++ b2 ++ b1 ++ b0 : Word).extractLsb' 0 8 = b0 ∧ (b3 ++ b2 ++ b1 ++ b0 : Word).extractLsb' 8 8 = b1 ∧
    (b3 ++ b2 ++ b1 ++ b0 : Word).extractLsb' 16 8 = b2 ∧ (b3 ++ b2 ++ b1 ++ b0 : Word).extractLsb' 24 8 = b3 := by
  have up {v : Nat} (hi : BitVec v) (lo : Byte) (k : Nat) : (hi ++ lo).extractLsb' (8 + k) 8 = hi.extractLsb' k 8 := by
    rw [BitVec.extractLsb'_append_eq_of_le (by omega), Nat.add_sub_cancel_left]
  have lo {v : Nat} (hi : BitVec v) (b : Byte) : (hi ++ b).extractLsb' 0 8 = b := BitVec.extractLsb'_append_eq_right
  refine ⟨lo _ _, (up _ _ 0).trans (lo _ _), (up _ _ 8).trans ((up _ _ 0).trans (lo _ _)), ?_⟩
  exact (up _ _ 16).trans ((up _ _ 8).trans ((up b3 b2 0).trans BitVec.extractLsb'_eq_self))

/-- Byte `k` of a word read is the byte read at its address (R40). -/
theorem readWord_byte (m : Memory) (base k : Nat) (hk : k < 4) :
    (m.readWord base).extractLsb' (8 * k) 8 = m.read (base + k) := by
  obtain ⟨h0, h1, h2, h3⟩ := bytes_of_word (m.read base) (m.read (base + 1)) (m.read (base + 2)) (m.read (base + 3))
  obtain rfl | rfl | rfl | rfl : k = 0 ∨ k = 1 ∨ k = 2 ∨ k = 3 := by omega
  exacts [h0, h1, h2, h3]

/-- Every address listed after storing a word was listed before or is one of its four. -/
theorem mem_writeWord (m : Memory) (base : Nat) (v : Word) (p : Host.Cell) (h : p ∈ m.writeWord base v) :
    p ∈ m ∨ (base ≤ p.1 ∧ p.1 < base + 4) := by
  unfold Memory.writeWord at h
  rcases mem_write _ _ _ _ h with h | ⟨rfl, -⟩
  · rcases mem_write _ _ _ _ h with h | ⟨rfl, -⟩
    · rcases mem_write _ _ _ _ h with h | ⟨rfl, -⟩
      · rcases mem_write _ _ _ _ h with h | ⟨rfl, -⟩
        · exact .inl h
        · exact .inr ⟨by simp, by simp⟩
      · exact .inr ⟨by simp, by simp⟩
    · exact .inr ⟨by simp, by simp⟩
  · exact .inr ⟨by simp, by simp⟩

end Sys2Proof.Machine
end

