-- ==== Sys2Proof/Laws/State.lean ====
section
/-! SUPPORT. One lemma per field per update of the state, so that no proof unfolds a record update. -/

namespace Sys2Proof.Machine

variable (s : State)

/-! ### writeReg -/

@[simp] theorem writeReg_params (i : Reg) (v : Word) : (s.writeReg i v).params = s.params := rfl
@[simp] theorem writeReg_regs (i : Reg) (v : Word) : (s.writeReg i v).regs = s.regs.set i.toNat v i.isLt := rfl
@[simp] theorem writeReg_pc (i : Reg) (v : Word) : (s.writeReg i v).pc = s.pc := rfl
@[simp] theorem writeReg_h (i : Reg) (v : Word) : (s.writeReg i v).h = s.h := rfl
@[simp] theorem writeReg_flagN (i : Reg) (v : Word) : (s.writeReg i v).flagN = negativeFlag v := rfl
@[simp] theorem writeReg_flagZ (i : Reg) (v : Word) : (s.writeReg i v).flagZ = zeroFlag v := rfl
@[simp] theorem writeReg_flagC (i : Reg) (v : Word) : (s.writeReg i v).flagC = s.flagC := rfl
@[simp] theorem writeReg_flagV (i : Reg) (v : Word) : (s.writeReg i v).flagV = s.flagV := rfl
@[simp] theorem writeReg_ram (i : Reg) (v : Word) : (s.writeReg i v).ram = s.ram := rfl
@[simp] theorem writeReg_rom (i : Reg) (v : Word) : (s.writeReg i v).rom = s.rom := rfl
@[simp] theorem writeReg_damage (i : Reg) (v : Word) : (s.writeReg i v).damage = s.damage := rfl
@[simp] theorem writeReg_progress (i : Reg) (v : Word) : (s.writeReg i v).progress = s.progress := rfl
@[simp] theorem writeReg_timer (i : Reg) (v : Word) : (s.writeReg i v).timer = s.timer := rfl
@[simp] theorem writeReg_switches (i : Reg) (v : Word) : (s.writeReg i v).switches = s.switches := rfl
@[simp] theorem writeReg_leds (i : Reg) (v : Word) : (s.writeReg i v).leds = s.leds := rfl
@[simp] theorem writeReg_mouse (i : Reg) (v : Word) : (s.writeReg i v).mouse = s.mouse := rfl
@[simp] theorem writeReg_keys (i : Reg) (v : Word) : (s.writeReg i v).keys = s.keys := rfl
@[simp] theorem writeReg_spiSelected (i : Reg) (v : Word) : (s.writeReg i v).spiSelected = s.spiSelected := rfl
@[simp] theorem writeReg_serialAttached (i : Reg) (v : Word) : (s.writeReg i v).serialAttached = s.serialAttached := rfl
@[simp] theorem writeReg_spiAttached (i : Reg) (v : Word) : (s.writeReg i v).spiAttached = s.spiAttached := rfl
@[simp] theorem writeReg_clipboardAttached (i : Reg) (v : Word) : (s.writeReg i v).clipboardAttached = s.clipboardAttached := rfl
@[simp] theorem writeReg_deviceCalls (i : Reg) (v : Word) : (s.writeReg i v).deviceCalls = s.deviceCalls := rfl
@[simp] theorem writeReg_deviceTick (i : Reg) (v : Word) : (s.writeReg i v).deviceTick = s.deviceTick := rfl
@[simp] theorem writeReg_log (i : Reg) (v : Word) : (s.writeReg i v).log = s.log := rfl

/-! ### setH -/

@[simp] theorem setH_params (v : Word) : (s.setH v).params = s.params := rfl
@[simp] theorem setH_regs (v : Word) : (s.setH v).regs = s.regs := rfl
@[simp] theorem setH_pc (v : Word) : (s.setH v).pc = s.pc := rfl
@[simp] theorem setH_h (v : Word) : (s.setH v).h = v := rfl
@[simp] theorem setH_flagN (v : Word) : (s.setH v).flagN = s.flagN := rfl
@[simp] theorem setH_flagZ (v : Word) : (s.setH v).flagZ = s.flagZ := rfl
@[simp] theorem setH_flagC (v : Word) : (s.setH v).flagC = s.flagC := rfl
@[simp] theorem setH_flagV (v : Word) : (s.setH v).flagV = s.flagV := rfl
@[simp] theorem setH_ram (v : Word) : (s.setH v).ram = s.ram := rfl
@[simp] theorem setH_rom (v : Word) : (s.setH v).rom = s.rom := rfl
@[simp] theorem setH_damage (v : Word) : (s.setH v).damage = s.damage := rfl
@[simp] theorem setH_progress (v : Word) : (s.setH v).progress = s.progress := rfl
@[simp] theorem setH_timer (v : Word) : (s.setH v).timer = s.timer := rfl
@[simp] theorem setH_switches (v : Word) : (s.setH v).switches = s.switches := rfl
@[simp] theorem setH_leds (v : Word) : (s.setH v).leds = s.leds := rfl
@[simp] theorem setH_mouse (v : Word) : (s.setH v).mouse = s.mouse := rfl
@[simp] theorem setH_keys (v : Word) : (s.setH v).keys = s.keys := rfl
@[simp] theorem setH_spiSelected (v : Word) : (s.setH v).spiSelected = s.spiSelected := rfl
@[simp] theorem setH_serialAttached (v : Word) : (s.setH v).serialAttached = s.serialAttached := rfl
@[simp] theorem setH_spiAttached (v : Word) : (s.setH v).spiAttached = s.spiAttached := rfl
@[simp] theorem setH_clipboardAttached (v : Word) : (s.setH v).clipboardAttached = s.clipboardAttached := rfl
@[simp] theorem setH_deviceCalls (v : Word) : (s.setH v).deviceCalls = s.deviceCalls := rfl
@[simp] theorem setH_deviceTick (v : Word) : (s.setH v).deviceTick = s.deviceTick := rfl
@[simp] theorem setH_log (v : Word) : (s.setH v).log = s.log := rfl

/-! ### setCV -/

@[simp] theorem setCV_params (c v : Bool) : (s.setCV c v).params = s.params := rfl
@[simp] theorem setCV_regs (c v : Bool) : (s.setCV c v).regs = s.regs := rfl
@[simp] theorem setCV_pc (c v : Bool) : (s.setCV c v).pc = s.pc := rfl
@[simp] theorem setCV_h (c v : Bool) : (s.setCV c v).h = s.h := rfl
@[simp] theorem setCV_flagN (c v : Bool) : (s.setCV c v).flagN = s.flagN := rfl
@[simp] theorem setCV_flagZ (c v : Bool) : (s.setCV c v).flagZ = s.flagZ := rfl
@[simp] theorem setCV_flagC (c v : Bool) : (s.setCV c v).flagC = c := rfl
@[simp] theorem setCV_flagV (c v : Bool) : (s.setCV c v).flagV = v := rfl
@[simp] theorem setCV_ram (c v : Bool) : (s.setCV c v).ram = s.ram := rfl
@[simp] theorem setCV_rom (c v : Bool) : (s.setCV c v).rom = s.rom := rfl
@[simp] theorem setCV_damage (c v : Bool) : (s.setCV c v).damage = s.damage := rfl
@[simp] theorem setCV_progress (c v : Bool) : (s.setCV c v).progress = s.progress := rfl
@[simp] theorem setCV_timer (c v : Bool) : (s.setCV c v).timer = s.timer := rfl
@[simp] theorem setCV_switches (c v : Bool) : (s.setCV c v).switches = s.switches := rfl
@[simp] theorem setCV_leds (c v : Bool) : (s.setCV c v).leds = s.leds := rfl
@[simp] theorem setCV_mouse (c v : Bool) : (s.setCV c v).mouse = s.mouse := rfl
@[simp] theorem setCV_keys (c v : Bool) : (s.setCV c v).keys = s.keys := rfl
@[simp] theorem setCV_spiSelected (c v : Bool) : (s.setCV c v).spiSelected = s.spiSelected := rfl
@[simp] theorem setCV_serialAttached (c v : Bool) : (s.setCV c v).serialAttached = s.serialAttached := rfl
@[simp] theorem setCV_spiAttached (c v : Bool) : (s.setCV c v).spiAttached = s.spiAttached := rfl
@[simp] theorem setCV_clipboardAttached (c v : Bool) : (s.setCV c v).clipboardAttached = s.clipboardAttached := rfl
@[simp] theorem setCV_deviceCalls (c v : Bool) : (s.setCV c v).deviceCalls = s.deviceCalls := rfl
@[simp] theorem setCV_deviceTick (c v : Bool) : (s.setCV c v).deviceTick = s.deviceTick := rfl
@[simp] theorem setCV_log (c v : Bool) : (s.setCV c v).log = s.log := rfl

/-! ### setPc -/

@[simp] theorem setPc_params (t : Word) : (s.setPc t).params = s.params := rfl
@[simp] theorem setPc_regs (t : Word) : (s.setPc t).regs = s.regs := rfl
@[simp] theorem setPc_pc (t : Word) : (s.setPc t).pc = t := rfl
@[simp] theorem setPc_h (t : Word) : (s.setPc t).h = s.h := rfl
@[simp] theorem setPc_flagN (t : Word) : (s.setPc t).flagN = s.flagN := rfl
@[simp] theorem setPc_flagZ (t : Word) : (s.setPc t).flagZ = s.flagZ := rfl
@[simp] theorem setPc_flagC (t : Word) : (s.setPc t).flagC = s.flagC := rfl
@[simp] theorem setPc_flagV (t : Word) : (s.setPc t).flagV = s.flagV := rfl
@[simp] theorem setPc_ram (t : Word) : (s.setPc t).ram = s.ram := rfl
@[simp] theorem setPc_rom (t : Word) : (s.setPc t).rom = s.rom := rfl
@[simp] theorem setPc_damage (t : Word) : (s.setPc t).damage = s.damage := rfl
@[simp] theorem setPc_progress (t : Word) : (s.setPc t).progress = s.progress := rfl
@[simp] theorem setPc_timer (t : Word) : (s.setPc t).timer = s.timer := rfl
@[simp] theorem setPc_switches (t : Word) : (s.setPc t).switches = s.switches := rfl
@[simp] theorem setPc_leds (t : Word) : (s.setPc t).leds = s.leds := rfl
@[simp] theorem setPc_mouse (t : Word) : (s.setPc t).mouse = s.mouse := rfl
@[simp] theorem setPc_keys (t : Word) : (s.setPc t).keys = s.keys := rfl
@[simp] theorem setPc_spiSelected (t : Word) : (s.setPc t).spiSelected = s.spiSelected := rfl
@[simp] theorem setPc_serialAttached (t : Word) : (s.setPc t).serialAttached = s.serialAttached := rfl
@[simp] theorem setPc_spiAttached (t : Word) : (s.setPc t).spiAttached = s.spiAttached := rfl
@[simp] theorem setPc_clipboardAttached (t : Word) : (s.setPc t).clipboardAttached = s.clipboardAttached := rfl
@[simp] theorem setPc_deviceCalls (t : Word) : (s.setPc t).deviceCalls = s.deviceCalls := rfl
@[simp] theorem setPc_deviceTick (t : Word) : (s.setPc t).deviceTick = s.deviceTick := rfl
@[simp] theorem setPc_log (t : Word) : (s.setPc t).log = s.log := rfl

/-! ### emit -/

@[simp] theorem emit_params (e : LogEvent) : (s.emit e).params = s.params := rfl
@[simp] theorem emit_regs (e : LogEvent) : (s.emit e).regs = s.regs := rfl
@[simp] theorem emit_pc (e : LogEvent) : (s.emit e).pc = s.pc := rfl
@[simp] theorem emit_h (e : LogEvent) : (s.emit e).h = s.h := rfl
@[simp] theorem emit_flagN (e : LogEvent) : (s.emit e).flagN = s.flagN := rfl
@[simp] theorem emit_flagZ (e : LogEvent) : (s.emit e).flagZ = s.flagZ := rfl
@[simp] theorem emit_flagC (e : LogEvent) : (s.emit e).flagC = s.flagC := rfl
@[simp] theorem emit_flagV (e : LogEvent) : (s.emit e).flagV = s.flagV := rfl
@[simp] theorem emit_ram (e : LogEvent) : (s.emit e).ram = s.ram := rfl
@[simp] theorem emit_rom (e : LogEvent) : (s.emit e).rom = s.rom := rfl
@[simp] theorem emit_damage (e : LogEvent) : (s.emit e).damage = s.damage := rfl
@[simp] theorem emit_progress (e : LogEvent) : (s.emit e).progress = s.progress := rfl
@[simp] theorem emit_timer (e : LogEvent) : (s.emit e).timer = s.timer := rfl
@[simp] theorem emit_switches (e : LogEvent) : (s.emit e).switches = s.switches := rfl
@[simp] theorem emit_leds (e : LogEvent) : (s.emit e).leds = s.leds := rfl
@[simp] theorem emit_mouse (e : LogEvent) : (s.emit e).mouse = s.mouse := rfl
@[simp] theorem emit_keys (e : LogEvent) : (s.emit e).keys = s.keys := rfl
@[simp] theorem emit_spiSelected (e : LogEvent) : (s.emit e).spiSelected = s.spiSelected := rfl
@[simp] theorem emit_serialAttached (e : LogEvent) : (s.emit e).serialAttached = s.serialAttached := rfl
@[simp] theorem emit_spiAttached (e : LogEvent) : (s.emit e).spiAttached = s.spiAttached := rfl
@[simp] theorem emit_clipboardAttached (e : LogEvent) : (s.emit e).clipboardAttached = s.clipboardAttached := rfl
@[simp] theorem emit_deviceCalls (e : LogEvent) : (s.emit e).deviceCalls = s.deviceCalls := rfl
@[simp] theorem emit_deviceTick (e : LogEvent) : (s.emit e).deviceTick = s.deviceTick := rfl
@[simp] theorem emit_log (e : LogEvent) : (s.emit e).log = e :: s.log := rfl

/-! ### resetPc -/

@[simp] theorem resetPc_params : s.resetPc.params = s.params := rfl
@[simp] theorem resetPc_regs : s.resetPc.regs = s.regs := rfl
@[simp] theorem resetPc_pc : s.resetPc.pc = romBaseIndex s.params := rfl
@[simp] theorem resetPc_h : s.resetPc.h = s.h := rfl
@[simp] theorem resetPc_flagN : s.resetPc.flagN = s.flagN := rfl
@[simp] theorem resetPc_flagZ : s.resetPc.flagZ = s.flagZ := rfl
@[simp] theorem resetPc_flagC : s.resetPc.flagC = s.flagC := rfl
@[simp] theorem resetPc_flagV : s.resetPc.flagV = s.flagV := rfl
@[simp] theorem resetPc_ram : s.resetPc.ram = s.ram := rfl
@[simp] theorem resetPc_rom : s.resetPc.rom = s.rom := rfl
@[simp] theorem resetPc_damage : s.resetPc.damage = s.damage := rfl
@[simp] theorem resetPc_progress : s.resetPc.progress = s.progress := rfl
@[simp] theorem resetPc_timer : s.resetPc.timer = s.timer := rfl
@[simp] theorem resetPc_switches : s.resetPc.switches = s.switches := rfl
@[simp] theorem resetPc_leds : s.resetPc.leds = s.leds := rfl
@[simp] theorem resetPc_mouse : s.resetPc.mouse = s.mouse := rfl
@[simp] theorem resetPc_keys : s.resetPc.keys = s.keys := rfl
@[simp] theorem resetPc_spiSelected : s.resetPc.spiSelected = s.spiSelected := rfl
@[simp] theorem resetPc_serialAttached : s.resetPc.serialAttached = s.serialAttached := rfl
@[simp] theorem resetPc_spiAttached : s.resetPc.spiAttached = s.spiAttached := rfl
@[simp] theorem resetPc_clipboardAttached : s.resetPc.clipboardAttached = s.clipboardAttached := rfl
@[simp] theorem resetPc_deviceCalls : s.resetPc.deviceCalls = s.deviceCalls := rfl
@[simp] theorem resetPc_deviceTick : s.resetPc.deviceTick = s.deviceTick := rfl
@[simp] theorem resetPc_log : s.resetPc.log = s.log := rfl

/-! ### takeInvalidFetch -/

@[simp] theorem takeInvalidFetch_params : s.takeInvalidFetch.params = s.params := rfl
@[simp] theorem takeInvalidFetch_regs : s.takeInvalidFetch.regs = s.regs := rfl
@[simp] theorem takeInvalidFetch_pc : s.takeInvalidFetch.pc = romBaseIndex s.params := rfl
@[simp] theorem takeInvalidFetch_h : s.takeInvalidFetch.h = s.h := rfl
@[simp] theorem takeInvalidFetch_flagN : s.takeInvalidFetch.flagN = s.flagN := rfl
@[simp] theorem takeInvalidFetch_flagZ : s.takeInvalidFetch.flagZ = s.flagZ := rfl
@[simp] theorem takeInvalidFetch_flagC : s.takeInvalidFetch.flagC = s.flagC := rfl
@[simp] theorem takeInvalidFetch_flagV : s.takeInvalidFetch.flagV = s.flagV := rfl
@[simp] theorem takeInvalidFetch_ram : s.takeInvalidFetch.ram = s.ram := rfl
@[simp] theorem takeInvalidFetch_rom : s.takeInvalidFetch.rom = s.rom := rfl
@[simp] theorem takeInvalidFetch_damage : s.takeInvalidFetch.damage = s.damage := rfl
@[simp] theorem takeInvalidFetch_progress : s.takeInvalidFetch.progress = s.progress := rfl
@[simp] theorem takeInvalidFetch_timer : s.takeInvalidFetch.timer = s.timer := rfl
@[simp] theorem takeInvalidFetch_switches : s.takeInvalidFetch.switches = s.switches := rfl
@[simp] theorem takeInvalidFetch_leds : s.takeInvalidFetch.leds = s.leds := rfl
@[simp] theorem takeInvalidFetch_mouse : s.takeInvalidFetch.mouse = s.mouse := rfl
@[simp] theorem takeInvalidFetch_keys : s.takeInvalidFetch.keys = s.keys := rfl
@[simp] theorem takeInvalidFetch_spiSelected : s.takeInvalidFetch.spiSelected = s.spiSelected := rfl
@[simp] theorem takeInvalidFetch_serialAttached : s.takeInvalidFetch.serialAttached = s.serialAttached := rfl
@[simp] theorem takeInvalidFetch_spiAttached : s.takeInvalidFetch.spiAttached = s.spiAttached := rfl
@[simp] theorem takeInvalidFetch_clipboardAttached : s.takeInvalidFetch.clipboardAttached = s.clipboardAttached := rfl
@[simp] theorem takeInvalidFetch_deviceCalls : s.takeInvalidFetch.deviceCalls = s.deviceCalls := rfl
@[simp] theorem takeInvalidFetch_deviceTick : s.takeInvalidFetch.deviceTick = s.deviceTick := rfl
@[simp] theorem takeInvalidFetch_log : s.takeInvalidFetch.log = .invalidFetch s.pc :: s.log := rfl

/-! ### decProgress -/

@[simp] theorem decProgress_params : s.decProgress.params = s.params := rfl
@[simp] theorem decProgress_regs : s.decProgress.regs = s.regs := rfl
@[simp] theorem decProgress_pc : s.decProgress.pc = s.pc := rfl
@[simp] theorem decProgress_h : s.decProgress.h = s.h := rfl
@[simp] theorem decProgress_flagN : s.decProgress.flagN = s.flagN := rfl
@[simp] theorem decProgress_flagZ : s.decProgress.flagZ = s.flagZ := rfl
@[simp] theorem decProgress_flagC : s.decProgress.flagC = s.flagC := rfl
@[simp] theorem decProgress_flagV : s.decProgress.flagV = s.flagV := rfl
@[simp] theorem decProgress_ram : s.decProgress.ram = s.ram := rfl
@[simp] theorem decProgress_rom : s.decProgress.rom = s.rom := rfl
@[simp] theorem decProgress_damage : s.decProgress.damage = s.damage := rfl
@[simp] theorem decProgress_progress : s.decProgress.progress = s.progress - 1 := rfl
@[simp] theorem decProgress_timer : s.decProgress.timer = s.timer := rfl
@[simp] theorem decProgress_switches : s.decProgress.switches = s.switches := rfl
@[simp] theorem decProgress_leds : s.decProgress.leds = s.leds := rfl
@[simp] theorem decProgress_mouse : s.decProgress.mouse = s.mouse := rfl
@[simp] theorem decProgress_keys : s.decProgress.keys = s.keys := rfl
@[simp] theorem decProgress_spiSelected : s.decProgress.spiSelected = s.spiSelected := rfl
@[simp] theorem decProgress_serialAttached : s.decProgress.serialAttached = s.serialAttached := rfl
@[simp] theorem decProgress_spiAttached : s.decProgress.spiAttached = s.spiAttached := rfl
@[simp] theorem decProgress_clipboardAttached : s.decProgress.clipboardAttached = s.clipboardAttached := rfl
@[simp] theorem decProgress_deviceCalls : s.decProgress.deviceCalls = s.deviceCalls := rfl
@[simp] theorem decProgress_deviceTick : s.decProgress.deviceTick = s.deviceTick := rfl
@[simp] theorem decProgress_log : s.decProgress.log = s.log := rfl

/-! ### storeRamWord -/

@[simp] theorem storeRamWord_params (a v : Word) : (s.storeRamWord a v).params = s.params := rfl
@[simp] theorem storeRamWord_regs (a v : Word) : (s.storeRamWord a v).regs = s.regs := rfl
@[simp] theorem storeRamWord_pc (a v : Word) : (s.storeRamWord a v).pc = s.pc := rfl
@[simp] theorem storeRamWord_h (a v : Word) : (s.storeRamWord a v).h = s.h := rfl
@[simp] theorem storeRamWord_flagN (a v : Word) : (s.storeRamWord a v).flagN = s.flagN := rfl
@[simp] theorem storeRamWord_flagZ (a v : Word) : (s.storeRamWord a v).flagZ = s.flagZ := rfl
@[simp] theorem storeRamWord_flagC (a v : Word) : (s.storeRamWord a v).flagC = s.flagC := rfl
@[simp] theorem storeRamWord_flagV (a v : Word) : (s.storeRamWord a v).flagV = s.flagV := rfl
@[simp] theorem storeRamWord_ram (a v : Word) : (s.storeRamWord a v).ram = s.ram.writeWord (wordBase a) v := rfl
@[simp] theorem storeRamWord_rom (a v : Word) : (s.storeRamWord a v).rom = s.rom := rfl
@[simp] theorem storeRamWord_damage (a v : Word) : (s.storeRamWord a v).damage = if s.params.displayStart ≤ a.toNat then damageMark s.params a s.damage else s.damage := rfl
@[simp] theorem storeRamWord_progress (a v : Word) : (s.storeRamWord a v).progress = s.progress := rfl
@[simp] theorem storeRamWord_timer (a v : Word) : (s.storeRamWord a v).timer = s.timer := rfl
@[simp] theorem storeRamWord_switches (a v : Word) : (s.storeRamWord a v).switches = s.switches := rfl
@[simp] theorem storeRamWord_leds (a v : Word) : (s.storeRamWord a v).leds = s.leds := rfl
@[simp] theorem storeRamWord_mouse (a v : Word) : (s.storeRamWord a v).mouse = s.mouse := rfl
@[simp] theorem storeRamWord_keys (a v : Word) : (s.storeRamWord a v).keys = s.keys := rfl
@[simp] theorem storeRamWord_spiSelected (a v : Word) : (s.storeRamWord a v).spiSelected = s.spiSelected := rfl
@[simp] theorem storeRamWord_serialAttached (a v : Word) : (s.storeRamWord a v).serialAttached = s.serialAttached := rfl
@[simp] theorem storeRamWord_spiAttached (a v : Word) : (s.storeRamWord a v).spiAttached = s.spiAttached := rfl
@[simp] theorem storeRamWord_clipboardAttached (a v : Word) : (s.storeRamWord a v).clipboardAttached = s.clipboardAttached := rfl
@[simp] theorem storeRamWord_deviceCalls (a v : Word) : (s.storeRamWord a v).deviceCalls = s.deviceCalls := rfl
@[simp] theorem storeRamWord_deviceTick (a v : Word) : (s.storeRamWord a v).deviceTick = s.deviceTick := rfl
@[simp] theorem storeRamWord_log (a v : Word) : (s.storeRamWord a v).log = s.log := rfl

/-! ### writeProduct -/

@[simp] theorem writeProduct_params (a : Reg) (t : BitVec 64) : (s.writeProduct a t).params = s.params := rfl
@[simp] theorem writeProduct_regs (a : Reg) (t : BitVec 64) : (s.writeProduct a t).regs = s.regs.set a.toNat (t.extractLsb' 0 32) a.isLt := rfl
@[simp] theorem writeProduct_pc (a : Reg) (t : BitVec 64) : (s.writeProduct a t).pc = s.pc := rfl
@[simp] theorem writeProduct_h (a : Reg) (t : BitVec 64) : (s.writeProduct a t).h = t.extractLsb' 32 32 := rfl
@[simp] theorem writeProduct_flagN (a : Reg) (t : BitVec 64) : (s.writeProduct a t).flagN = negativeFlag (t.extractLsb' 0 32) := rfl
@[simp] theorem writeProduct_flagZ (a : Reg) (t : BitVec 64) : (s.writeProduct a t).flagZ = zeroFlag (t.extractLsb' 0 32) := rfl
@[simp] theorem writeProduct_flagC (a : Reg) (t : BitVec 64) : (s.writeProduct a t).flagC = s.flagC := rfl
@[simp] theorem writeProduct_flagV (a : Reg) (t : BitVec 64) : (s.writeProduct a t).flagV = s.flagV := rfl
@[simp] theorem writeProduct_ram (a : Reg) (t : BitVec 64) : (s.writeProduct a t).ram = s.ram := rfl
@[simp] theorem writeProduct_rom (a : Reg) (t : BitVec 64) : (s.writeProduct a t).rom = s.rom := rfl
@[simp] theorem writeProduct_damage (a : Reg) (t : BitVec 64) : (s.writeProduct a t).damage = s.damage := rfl
@[simp] theorem writeProduct_progress (a : Reg) (t : BitVec 64) : (s.writeProduct a t).progress = s.progress := rfl
@[simp] theorem writeProduct_timer (a : Reg) (t : BitVec 64) : (s.writeProduct a t).timer = s.timer := rfl
@[simp] theorem writeProduct_switches (a : Reg) (t : BitVec 64) : (s.writeProduct a t).switches = s.switches := rfl
@[simp] theorem writeProduct_leds (a : Reg) (t : BitVec 64) : (s.writeProduct a t).leds = s.leds := rfl
@[simp] theorem writeProduct_mouse (a : Reg) (t : BitVec 64) : (s.writeProduct a t).mouse = s.mouse := rfl
@[simp] theorem writeProduct_keys (a : Reg) (t : BitVec 64) : (s.writeProduct a t).keys = s.keys := rfl
@[simp] theorem writeProduct_spiSelected (a : Reg) (t : BitVec 64) : (s.writeProduct a t).spiSelected = s.spiSelected := rfl
@[simp] theorem writeProduct_serialAttached (a : Reg) (t : BitVec 64) : (s.writeProduct a t).serialAttached = s.serialAttached := rfl
@[simp] theorem writeProduct_spiAttached (a : Reg) (t : BitVec 64) : (s.writeProduct a t).spiAttached = s.spiAttached := rfl
@[simp] theorem writeProduct_clipboardAttached (a : Reg) (t : BitVec 64) : (s.writeProduct a t).clipboardAttached = s.clipboardAttached := rfl
@[simp] theorem writeProduct_deviceCalls (a : Reg) (t : BitVec 64) : (s.writeProduct a t).deviceCalls = s.deviceCalls := rfl
@[simp] theorem writeProduct_deviceTick (a : Reg) (t : BitVec 64) : (s.writeProduct a t).deviceTick = s.deviceTick := rfl
@[simp] theorem writeProduct_log (a : Reg) (t : BitVec 64) : (s.writeProduct a t).log = s.log := rfl

/-! ### writeLink -/

@[simp] theorem writeLink_params : s.writeLink.params = s.params := rfl
@[simp] theorem writeLink_regs : s.writeLink.regs = s.regs.set linkReg.toNat s.linkValue linkReg.isLt := rfl
@[simp] theorem writeLink_pc : s.writeLink.pc = s.pc := rfl
@[simp] theorem writeLink_h : s.writeLink.h = s.h := rfl
@[simp] theorem writeLink_flagN : s.writeLink.flagN = negativeFlag s.linkValue := rfl
@[simp] theorem writeLink_flagZ : s.writeLink.flagZ = zeroFlag s.linkValue := rfl
@[simp] theorem writeLink_flagC : s.writeLink.flagC = s.flagC := rfl
@[simp] theorem writeLink_flagV : s.writeLink.flagV = s.flagV := rfl
@[simp] theorem writeLink_ram : s.writeLink.ram = s.ram := rfl
@[simp] theorem writeLink_rom : s.writeLink.rom = s.rom := rfl
@[simp] theorem writeLink_damage : s.writeLink.damage = s.damage := rfl
@[simp] theorem writeLink_progress : s.writeLink.progress = s.progress := rfl
@[simp] theorem writeLink_timer : s.writeLink.timer = s.timer := rfl
@[simp] theorem writeLink_switches : s.writeLink.switches = s.switches := rfl
@[simp] theorem writeLink_leds : s.writeLink.leds = s.leds := rfl
@[simp] theorem writeLink_mouse : s.writeLink.mouse = s.mouse := rfl
@[simp] theorem writeLink_keys : s.writeLink.keys = s.keys := rfl
@[simp] theorem writeLink_spiSelected : s.writeLink.spiSelected = s.spiSelected := rfl
@[simp] theorem writeLink_serialAttached : s.writeLink.serialAttached = s.serialAttached := rfl
@[simp] theorem writeLink_spiAttached : s.writeLink.spiAttached = s.spiAttached := rfl
@[simp] theorem writeLink_clipboardAttached : s.writeLink.clipboardAttached = s.clipboardAttached := rfl
@[simp] theorem writeLink_deviceCalls : s.writeLink.deviceCalls = s.deviceCalls := rfl
@[simp] theorem writeLink_deviceTick : s.writeLink.deviceTick = s.deviceTick := rfl
@[simp] theorem writeLink_log : s.writeLink.log = s.log := rfl

end Sys2Proof.Machine
end

