-- ==== Sys2Proof/Laws/Registers.lean ====
section
/-! SUPPORT. What the register write path does (R15), and what reading a register sees after each update. -/

namespace Sys2Proof.Machine

variable (s : State)

theorem reg_eq (i : Reg) : s.reg i = s.regs[i.toNat]'i.isLt := rfl

/-- The register written holds the value. -/
@[simp] theorem reg_writeReg_same (i : Reg) (v : Word) : (s.writeReg i v).reg i = v := by
  simp [State.reg]

/-- Every other register is unchanged. -/
theorem reg_writeReg_other {i j : Reg} (v : Word) (h : j ≠ i) : (s.writeReg i v).reg j = s.reg j := by
  have hij : i.toNat ≠ j.toNat := fun e => h (BitVec.eq_of_toNat_eq e.symm)
  simp [State.reg, hij]

/-- The whole register file after a write. -/
theorem reg_writeReg (i j : Reg) (v : Word) : (s.writeReg i v).reg j = if j = i then v else s.reg j := by
  split
  · subst_vars; exact reg_writeReg_same s _ v
  · exact reg_writeReg_other s v ‹_›

@[simp] theorem reg_setH (v : Word) (i : Reg) : (s.setH v).reg i = s.reg i := rfl
@[simp] theorem reg_setCV (c v : Bool) (i : Reg) : (s.setCV c v).reg i = s.reg i := rfl
@[simp] theorem reg_setPc (t : Word) (i : Reg) : (s.setPc t).reg i = s.reg i := rfl
@[simp] theorem reg_emit (e : LogEvent) (i : Reg) : (s.emit e).reg i = s.reg i := rfl
@[simp] theorem reg_resetPc (i : Reg) : s.resetPc.reg i = s.reg i := rfl
@[simp] theorem reg_takeInvalidFetch (i : Reg) : s.takeInvalidFetch.reg i = s.reg i := rfl
@[simp] theorem reg_decProgress (i : Reg) : s.decProgress.reg i = s.reg i := rfl
@[simp] theorem reg_storeRamWord (a v : Word) (i : Reg) : (s.storeRamWord a v).reg i = s.reg i := rfl

/-- The product's low word is in the destination, and no other register changes (R82). -/
theorem reg_writeProduct (a j : Reg) (t : BitVec 64) :
    (s.writeProduct a t).reg j = if j = a then t.extractLsb' 0 32 else s.reg j := by
  rw [State.writeProduct, reg_writeReg, reg_setH]

/-- The link is in `x[15]`, and no other register changes (R101). -/
theorem reg_writeLink (j : Reg) : s.writeLink.reg j = if j = linkReg then s.linkValue else s.reg j := by
  rw [State.writeLink, reg_writeReg]

end Sys2Proof.Machine
end

