-- ==== Sys2Proof/Laws/Bus.lean ====
section
/-! SUPPORT. Everything each bus and MMIO operation can do, once: later proofs cite these instead of unfolding. -/

namespace Sys2Proof.Machine

open Config (DevicePort DeviceCall)

/-! ### The region decoder (R34) -/

theorem regionOf_ram {p : Config.Params} {a : Word} : regionOf p a = .ram ↔ a.toNat < p.memSize := by
  unfold regionOf
  split
  · simp_all
  · split
    · simp_all
    · split <;> simp_all

theorem regionOf_mmio {p : Config.Params} {a : Word} :
    regionOf p a = .mmio ↔ p.memSize ≤ a.toNat ∧ p.ioStart ≤ a.toNat := by
  unfold regionOf
  split
  · simp only [reduceCtorEq, false_iff]; omega
  · split
    · simp only [true_iff]; omega
    · split <;> simp only [reduceCtorEq, false_iff] <;> omega

theorem regionOf_rom {p : Config.Params} {a : Word} :
    regionOf p a = .rom ↔
      p.memSize ≤ a.toNat ∧ a.toNat < p.ioStart ∧ p.romStart ≤ a.toNat ∧ a.toNat - p.romStart < 4 * p.romWords := by
  unfold regionOf
  split
  · simp only [reduceCtorEq, false_iff]; omega
  · split
    · simp only [reduceCtorEq, false_iff]; omega
    · split
      · simp only [true_iff]; omega
      · simp only [reduceCtorEq, false_iff]; omega

/-! ### Device calls (R131) -/

/-- A device read makes one call if the device is attached, and else changes nothing. -/
theorem deviceRead_cases (s : State) (port : DevicePort) :
    (s.attached port = true ∧ s.deviceRead port =
      ({ s with deviceCalls := .read port (s.oracle port) :: s.deviceCalls, deviceTick := s.deviceTick + 1 },
        s.oracle port)) ∨
    (s.attached port = false ∧ s.deviceRead port = (s, absentAnswer port)) := by
  unfold State.deviceRead
  cases h : s.attached port <;> simp

/-- A device write makes one call if the device is attached, and else changes nothing. -/
theorem deviceWrite_cases (s : State) (port : DevicePort) (v : Word) :
    (s.attached port = true ∧ s.deviceWrite port v = { s with deviceCalls := .write port v :: s.deviceCalls }) ∨
    (s.attached port = false ∧ s.deviceWrite port v = s) := by
  unfold State.deviceWrite
  cases h : s.attached port <;> simp

/-! ### What a read may change -/

/-- What a bus read may change: the key queue, the progress counter and the record of device calls. -/
def ReadEffect (s t : State) : Prop :=
  t = { s with keys := t.keys, progress := t.progress, deviceCalls := t.deviceCalls, deviceTick := t.deviceTick }

theorem readEffect_refl (s : State) : ReadEffect s s := rfl

theorem deviceRead_effect (s : State) (port : DevicePort) : ReadEffect s (s.deviceRead port).1 := by
  rcases deviceRead_cases s port with ⟨-, h⟩ | ⟨-, h⟩ <;> rw [h] <;> rfl

/-- An MMIO read changes at most the key queue, the progress counter and the device record (R43). -/
theorem mmioReadReg_effect (s : State) (r : MmioReg) : ReadEffect s (s.mmioReadReg r).1 := by
  cases r <;> simp only [State.mmioReadReg] <;> first
    | exact deviceRead_effect _ _
    | rfl
    | skip
  · unfold State.readMouse; split <;> rfl
  · unfold State.readKeyboard; split <;> rfl

theorem mmioRead_effect (s : State) (a : Word) : ReadEffect s (s.mmioRead a).1 := by
  unfold State.mmioRead
  split
  · exact mmioReadReg_effect _ _
  · exact readEffect_refl s

/-- A load changes nothing outside MMIO, and there at most what an MMIO read may change (R43). -/
theorem loadWord_effect (s : State) (a : Word) : ReadEffect s (s.loadWord a).1 := by
  unfold State.loadWord
  split
  · exact readEffect_refl s
  · exact readEffect_refl s
  · exact mmioRead_effect s a
  · exact readEffect_refl s

/-! ### What a write may change -/

/-- What an MMIO write may change: the LEDs, the SPI selection and the record of device calls. -/
def WriteEffect (s t : State) : Prop :=
  t = { s with leds := t.leds, spiSelected := t.spiSelected, deviceCalls := t.deviceCalls }

theorem writeEffect_refl (s : State) : WriteEffect s s := rfl

theorem deviceWrite_effect (s : State) (port : DevicePort) (v : Word) : WriteEffect s (s.deviceWrite port v) := by
  rcases deviceWrite_cases s port v with ⟨-, h⟩ | ⟨-, h⟩ <;> rw [h] <;> rfl

theorem mmioWriteReg_effect (s : State) (v : Word) (r : MmioReg) : WriteEffect s (s.mmioWriteReg v r) := by
  cases r <;> simp only [State.mmioWriteReg] <;> first
    | exact deviceWrite_effect _ _ _
    | rfl

theorem mmioWrite_effect (s : State) (a v : Word) : WriteEffect s (s.mmioWrite a v) := by
  unfold State.mmioWrite
  split
  · exact mmioWriteReg_effect _ _ _
  · exact writeEffect_refl s

/-- A word store is a RAM store, an MMIO write, or nothing (R37). -/
theorem storeWord_cases (s : State) (a v : Word) :
    (regionOf s.params a = .ram ∧ s.storeWord a v = s.storeRamWord a v) ∨
    (regionOf s.params a = .mmio ∧ s.storeWord a v = s.mmioWrite a v) ∨
    ((regionOf s.params a = .rom ∨ regionOf s.params a = .none) ∧ s.storeWord a v = s) := by
  unfold State.storeWord
  cases h : regionOf s.params a <;> simp

/-- A byte store is a RAM word store of the merged word, an MMIO write of the zero-extended byte, or nothing (R39). -/
theorem storeByte_cases (s : State) (a : Word) (b : Byte) :
    (regionOf s.params a = .ram ∧
      s.storeByte a b = s.storeRamWord a (withLaneByte (s.ram.readWord (wordBase a)) a b)) ∨
    (regionOf s.params a = .mmio ∧ s.storeByte a b = s.mmioWrite a (b.setWidth 32)) ∨
    ((regionOf s.params a = .rom ∨ regionOf s.params a = .none) ∧ s.storeByte a b = s) := by
  unfold State.storeByte
  cases h : regionOf s.params a <;> simp [State.storeWord, h]

/-- A RAM store changes no byte outside the aligned word of its address (R37, R41). -/
theorem storeRamWord_read_other (s : State) (a v : Word) (k : Nat) (h : k < wordBase a ∨ wordBase a + 4 ≤ k) :
    (s.storeRamWord a v).ram.read k = s.ram.read k :=
  read_writeWord_other s.ram v h

/-- A RAM store keeps the canonical form. -/
theorem storeRamWord_wf (s : State) (hs : s.ram.wf) (a v : Word) : (s.storeRamWord a v).ram.wf :=
  writeWord_wf s.ram hs _ v

/-- A mark only expands the rectangle (R45). -/
theorem damageMark_expands (p : Config.Params) (a : Word) (r : Rect) :
    (damageMark p a r).x1 ≤ r.x1 ∧ (damageMark p a r).y1 ≤ r.y1 ∧
    r.x2 ≤ (damageMark p a r).x2 ∧ r.y2 ≤ (damageMark p a r).y2 := by
  unfold damageMark
  split <;> simp [Rect.mark]

end Sys2Proof.Machine
end

