-- ==== Sys2Proof/Laws/Decode.lean ====
section
/-! SUPPORT. The small lemmas of the decoder and the encoder: each field of each assembled word. -/

namespace Sys2Proof

open Machine (word_of_bytes)

/-- The decoder reads the bytes of a word as that word, and nothing is left over. -/
@[simp] theorem decode_bytesOfWord (w : Word) : decode (bytesOfWord w) = .ok (decodeWord w, []) := by
  simp only [bytesOfWord, decode, wordOfBytes, word_of_bytes]

@[simp] theorem opcodeOfBits_opcodeBits (o : Opcode) : opcodeOfBits (opcodeBits o) = o := by cases o <;> rfl

@[simp] theorem condOfBits_condBits (c : Cond) : condOfBits (condBits c) = c := by cases c <;> rfl

/-! ### Fields of an appended word -/

theorem field_above {v w : Nat} {hi : BitVec v} {lo : BitVec w} {start len : Nat} {x : BitVec len} (h : w ≤ start)
    (hx : hi.extractLsb' (start - w) len = x) : (hi ++ lo).extractLsb' start len = x :=
  (BitVec.extractLsb'_append_eq_of_le h).trans hx

theorem field_low {v w : Nat} {hi : BitVec v} {lo : BitVec w} : (hi ++ lo).extractLsb' 0 w = lo :=
  BitVec.extractLsb'_append_eq_right

theorem bit_above {v w : Nat} {hi : BitVec v} {lo : BitVec w} {i : Nat} {x : Bool} (h : w ≤ i)
    (hx : hi.getLsbD (i - w) = x) : (hi ++ lo).getLsbD i = x := by
  rw [BitVec.getLsbD_append, if_neg (by omega), hx]

theorem bit_low {v : Nat} {hi : BitVec v} {x : Bool} : (hi ++ BitVec.ofBool x).getLsbD 0 = x := by
  rw [BitVec.getLsbD_append, if_pos (by omega)]; simp

/-! ### Register format (R57) -/

section
variable (q u v : Bool) (a b : Reg) (op : Opcode) (low : BitVec 16)

@[simp] theorem bitP_registerWord : bitP (registerWord q u v a b op low) = false :=
  bit_above (v := 16) (w := 16) (by decide) <|
    bit_above (v := 12) (w := 4) (by decide) <|
    bit_above (v := 8) (w := 4) (by decide) <|
    bit_above (v := 4) (w := 4) (by decide) <|
    bit_above (v := 3) (w := 1) (by decide) <|
    bit_above (v := 2) (w := 1) (by decide) <|
    bit_above (v := 1) (w := 1) (by decide) <|
    rfl

@[simp] theorem bitQ_registerWord : bitQ (registerWord q u v a b op low) = q :=
  bit_above (v := 16) (w := 16) (by decide) <|
    bit_above (v := 12) (w := 4) (by decide) <|
    bit_above (v := 8) (w := 4) (by decide) <|
    bit_above (v := 4) (w := 4) (by decide) <|
    bit_above (v := 3) (w := 1) (by decide) <|
    bit_above (v := 2) (w := 1) (by decide) <|
    bit_low (v := 1)

@[simp] theorem bitU_registerWord : bitU (registerWord q u v a b op low) = u :=
  bit_above (v := 16) (w := 16) (by decide) <|
    bit_above (v := 12) (w := 4) (by decide) <|
    bit_above (v := 8) (w := 4) (by decide) <|
    bit_above (v := 4) (w := 4) (by decide) <|
    bit_above (v := 3) (w := 1) (by decide) <|
    bit_low (v := 2)

@[simp] theorem bitV_registerWord : bitV (registerWord q u v a b op low) = v :=
  bit_above (v := 16) (w := 16) (by decide) <|
    bit_above (v := 12) (w := 4) (by decide) <|
    bit_above (v := 8) (w := 4) (by decide) <|
    bit_above (v := 4) (w := 4) (by decide) <|
    bit_low (v := 3)

@[simp] theorem fieldA_registerWord : fieldA (registerWord q u v a b op low) = a :=
  field_above (v := 16) (w := 16) (by decide) <|
    field_above (v := 12) (w := 4) (by decide) <|
    field_above (v := 8) (w := 4) (by decide) <|
    field_low (v := 4)

@[simp] theorem fieldB_registerWord : fieldB (registerWord q u v a b op low) = b :=
  field_above (v := 16) (w := 16) (by decide) <|
    field_above (v := 12) (w := 4) (by decide) <|
    field_low (v := 8)

@[simp] theorem fieldOp_registerWord : fieldOp (registerWord q u v a b op low) = opcodeBits op :=
  field_above (v := 16) (w := 16) (by decide) <|
    field_low (v := 12)

@[simp] theorem fieldImm_registerWord : fieldImm (registerWord q u v a b op low) = low :=
  field_low (v := 16)

@[simp] theorem fieldC_registerWord : fieldC (registerWord q u v a b op low) = low.extractLsb' 0 4 :=
  BitVec.extractLsb'_append_eq_of_add_le (v := 16) (w := 16) (by decide)
end

/-! ### Memory format (R61) -/

section
variable (u v : Bool) (a b : Reg) (off : BitVec 20)

@[simp] theorem bitU_memoryWord : bitU (memoryWord u v a b off) = u :=
  bit_above (v := 12) (w := 20) (by decide) <|
    bit_above (v := 8) (w := 4) (by decide) <|
    bit_above (v := 4) (w := 4) (by decide) <|
    bit_above (v := 3) (w := 1) (by decide) <|
    bit_low (v := 2)

@[simp] theorem bitV_memoryWord : bitV (memoryWord u v a b off) = v :=
  bit_above (v := 12) (w := 20) (by decide) <|
    bit_above (v := 8) (w := 4) (by decide) <|
    bit_above (v := 4) (w := 4) (by decide) <|
    bit_low (v := 3)

@[simp] theorem fieldA_memoryWord : fieldA (memoryWord u v a b off) = a :=
  field_above (v := 12) (w := 20) (by decide) <|
    field_above (v := 8) (w := 4) (by decide) <|
    field_low (v := 4)

@[simp] theorem fieldB_memoryWord : fieldB (memoryWord u v a b off) = b :=
  field_above (v := 12) (w := 20) (by decide) <|
    field_low (v := 8)

@[simp] theorem fieldOff20_memoryWord : fieldOff20 (memoryWord u v a b off) = off :=
  field_low (v := 12)

@[simp] theorem bitP_memoryWord : bitP (memoryWord u v a b off) = true :=
  bit_above (v := 12) (w := 20) (by decide) <|
    bit_above (v := 8) (w := 4) (by decide) <|
    bit_above (v := 4) (w := 4) (by decide) <|
    bit_above (v := 3) (w := 1) (by decide) <|
    bit_above (v := 2) (w := 1) (by decide) <|
    rfl

@[simp] theorem bitQ_memoryWord : bitQ (memoryWord u v a b off) = false :=
  bit_above (v := 12) (w := 20) (by decide) <|
    bit_above (v := 8) (w := 4) (by decide) <|
    bit_above (v := 4) (w := 4) (by decide) <|
    bit_above (v := 3) (w := 1) (by decide) <|
    bit_above (v := 2) (w := 1) (by decide) <|
    rfl

end

/-! ### Branch format (R62) -/

section
variable (u v inv : Bool) (cond : Cond) (low : BitVec 24)

@[simp] theorem bitU_branchWord : bitU (branchWord u v inv cond low) = u :=
  bit_above (v := 8) (w := 24) (by decide) <|
    bit_above (v := 5) (w := 3) (by decide) <|
    bit_above (v := 4) (w := 1) (by decide) <|
    bit_above (v := 3) (w := 1) (by decide) <|
    bit_low (v := 2)

@[simp] theorem bitV_branchWord : bitV (branchWord u v inv cond low) = v :=
  bit_above (v := 8) (w := 24) (by decide) <|
    bit_above (v := 5) (w := 3) (by decide) <|
    bit_above (v := 4) (w := 1) (by decide) <|
    bit_low (v := 3)

@[simp] theorem bitInv_branchWord : bitInv (branchWord u v inv cond low) = inv :=
  bit_above (v := 8) (w := 24) (by decide) <|
    bit_above (v := 5) (w := 3) (by decide) <|
    bit_low (v := 4)

@[simp] theorem fieldCond_branchWord : fieldCond (branchWord u v inv cond low) = condBits cond :=
  field_above (v := 8) (w := 24) (by decide) <|
    field_low (v := 5)

@[simp] theorem fieldOff24_branchWord : fieldOff24 (branchWord u v inv cond low) = low :=
  field_low (v := 8)

@[simp] theorem bitP_branchWord : bitP (branchWord u v inv cond low) = true :=
  bit_above (v := 8) (w := 24) (by decide) <|
    bit_above (v := 5) (w := 3) (by decide) <|
    bit_above (v := 4) (w := 1) (by decide) <|
    bit_above (v := 3) (w := 1) (by decide) <|
    bit_above (v := 2) (w := 1) (by decide) <|
    rfl

@[simp] theorem bitQ_branchWord : bitQ (branchWord u v inv cond low) = true :=
  bit_above (v := 8) (w := 24) (by decide) <|
    bit_above (v := 5) (w := 3) (by decide) <|
    bit_above (v := 4) (w := 1) (by decide) <|
    bit_above (v := 3) (w := 1) (by decide) <|
    bit_above (v := 2) (w := 1) (by decide) <|
    rfl

@[simp] theorem fieldC_branchWord : fieldC (branchWord u v inv cond low) = low.extractLsb' 0 4 :=
  BitVec.extractLsb'_append_eq_of_add_le (v := 8) (w := 24) (by decide)
end

/-! ### Operands (R58) -/

/-- The low half of a register operand names the register. -/
@[simp] theorem registerLow (c : Reg) : (0#12 ++ c).extractLsb' 0 4 = c := field_low (v := 12)

theorem operandLow_reg (c : Reg) : (operandLow (.reg c)).extractLsb' 0 4 = c := registerLow c

/-- The register field of a register branch names the register. -/
@[simp] theorem branchLow_reg (c : Reg) : (0#20 ++ c).extractLsb' 0 4 = c := field_low (v := 20)

/-- A word that carries an operand's `q`, `v` and low half decodes to that operand. -/
theorem operandOf_registerWord (u v : Bool) (a b : Reg) (op : Opcode) (c : Operand) (h : c.fillAgrees v = true) :
    operandOf (registerWord (operandQ c) u v a b op (operandLow c)) = c := by
  cases c with
  | reg c => simp [operandOf, operandQ, operandLow]
  | imm fill value =>
    have hv : fill = v := by simpa [Operand.fillAgrees] using h
    simp [operandOf, operandQ, operandLow, hv]

/-- A word that writes ignored bits as 0 decodes to its operand. -/
@[simp] theorem operandOf_plainWord (u : Bool) (a b : Reg) (op : Opcode) (c : Operand) :
    operandOf (plainWord u a b op c) = c :=
  operandOf_registerWord u (operandV c) a b op c (by cases c <;> simp [Operand.fillAgrees, operandV])

/-! ### A word whose `v` is its operand's fill (R65) -/

section
variable (u : Bool) (a b : Reg) (op : Opcode) (c : Operand)

@[simp] theorem bitP_plainWord : bitP (plainWord u a b op c) = false := bitP_registerWord ..
@[simp] theorem bitQ_plainWord : bitQ (plainWord u a b op c) = operandQ c := bitQ_registerWord ..
@[simp] theorem bitU_plainWord : bitU (plainWord u a b op c) = u := bitU_registerWord ..
@[simp] theorem bitV_plainWord : bitV (plainWord u a b op c) = operandV c := bitV_registerWord ..
@[simp] theorem fieldA_plainWord : fieldA (plainWord u a b op c) = a := fieldA_registerWord ..
@[simp] theorem fieldB_plainWord : fieldB (plainWord u a b op c) = b := fieldB_registerWord ..
@[simp] theorem fieldOp_plainWord : fieldOp (plainWord u a b op c) = opcodeBits op := fieldOp_registerWord ..
end

end Sys2Proof
end

