-- ==== Sys2Proof/Laws/Exec.lean ====
section
/-! SUPPORT. Everything a step can do, once: later proofs about all instructions take these apart instead of unfolding
the meanings. -/

namespace Sys2Proof.Machine

/-- A step is an invalid fetch, or one instruction after the increment of the pc (R136). -/
theorem step_next_cases {s t : State} (h : step s = .next t) :
    (s.fetch = none ∧ t = s.takeInvalidFetch) ∨
    ∃ ir, s.fetch = some ir ∧ exec (decodeWord ir) (s.setPc (s.pc + 1#32)) = .next t := by
  unfold step at h
  split at h
  · cases h; exact .inl ⟨‹_›, rfl⟩
  · rw [decode_bytesOfWord] at h; exact .inr ⟨_, ‹_›, h⟩

/-- The updates an instruction can make: what `exec` answers is one of these. -/
inductive Effect (s : State) : State → Prop
  /-- A register write (R15). -/
  | write (a : Reg) (v : Word) : Effect s (s.writeReg a v)
  /-- `C` and `V`, then a register write (R80, R81). -/
  | arith (c w : Bool) (a : Reg) (v : Word) : Effect s ((s.setCV c w).writeReg a v)
  /-- `H`, then a register write (R82, R83). -/
  | aux (x : Word) (a : Reg) (v : Word) : Effect s ((s.setH x).writeReg a v)
  /-- The diagnostic of a DIV (R110). -/
  | diagnose (d : Word) (hd : d.toInt ≤ 0) : Effect s (s.emit (.divNonPositive (s.pc - 1#32) d))
  /-- A bus read, then a register write (R96, R97). -/
  | load (ea : Word) (a : Reg) (v : Word) : Effect s ((s.loadWord ea).1.writeReg a v)
  /-- A word written to RAM (R98, R99). -/
  | storeRam (ea v : Word) (hea : ea.toNat < s.params.memSize) : Effect s (s.storeRamWord ea v)
  /-- An MMIO write (R98, R99). -/
  | storeMmio (ea v : Word) : Effect s (s.mmioWrite ea v)
  /-- A branch (R103, R105). -/
  | jump (t : Word) : Effect s (s.setPc t)
  /-- A linking branch (R104, R106). -/
  | call (t : Word) : Effect s (s.writeLink.setPc t)
  /-- A branch not taken, or a store that reaches neither RAM nor MMIO (R37, R100). -/
  | nothing : Effect s s

theorem storeWord_updates (s : State) (a v : Word) : Effect s (s.storeWord a v) := by
  rcases storeWord_cases s a v with ⟨h, e⟩ | ⟨-, e⟩ | ⟨-, e⟩ <;> rw [e]
  · exact .storeRam _ _ (regionOf_ram.1 h)
  · exact .storeMmio ..
  · exact .nothing

theorem storeByte_updates (s : State) (a : Word) (b : Byte) : Effect s (s.storeByte a b) := by
  rcases storeByte_cases s a b with ⟨h, e⟩ | ⟨-, e⟩ | ⟨-, e⟩ <;> rw [e]
  · exact .storeRam _ _ (regionOf_ram.1 h)
  · exact .storeMmio ..
  · exact .nothing

/-- What an instruction answers is one of the updates above. -/
theorem exec_updates {i : Instr} {s t : State} (h : exec i s = .next t) : Effect s t := by
  cases i <;> simp only [exec] at h
  case add => cases h; exact .arith ..
  case sub => cases h; exact .arith ..
  case mul => cases h; exact .aux ..
  case mulu => cases h; exact .aux ..
  case div =>
    simp only [execDiv] at h
    split at h <;> cases h
    · exact .diagnose _ ‹_›
    · exact .aux ..
  case ldw => cases h; exact .load ..
  case ldb => cases h; exact .load ..
  case stw => cases h; exact storeWord_updates ..
  case stb => cases h; exact storeByte_updates ..
  case bReg => cases h; split; exacts [.jump _, .nothing]
  case bOff => cases h; split; exacts [.jump _, .nothing]
  case blReg => cases h; split; exacts [.call _, .nothing]
  case blOff => cases h; split; exacts [.call _, .nothing]
  all_goals cases h; exact .write ..

end Sys2Proof.Machine
end

