-- ==== Sys2Proof/Laws/Flags.lean ====
section
/-! SUPPORT. What the flag computations mean on values, and the operands in numbers. -/

namespace Sys2Proof.Machine

@[simp] theorem zeroFlag_iff (v : Word) : zeroFlag v = true ↔ v = 0#32 := by simp [zeroFlag]

/-- Bit 31 is the sign of the value. -/
@[simp] theorem negativeFlag_iff (v : Word) : negativeFlag v = true ↔ v.toInt < 0 := by
  rw [BitVec.toInt_neg_iff]
  have h := BitVec.msb_eq_true_iff_two_mul_ge (x := v)
  rwa [BitVec.msb_eq_getLsbD_last] at h

/-- The sign of a value as its most significant bit. -/
theorem msb_eq_decide_neg (v : Word) : v.msb = decide (v.toInt < 0) := by
  rw [Bool.eq_iff_iff, decide_eq_true_iff, BitVec.toInt_neg_iff, BitVec.msb_eq_true_iff_two_mul_ge]

/-- The sign test that both overflow rules make (R80, R81). -/
theorem signs_differ (w x y z : Word) :
    ((w ^^^ x) &&& (y ^^^ z)).getLsbD 31 = ((w.msb != x.msb) && (y.msb != z.msb)) := by
  simp [BitVec.msb_eq_getLsbD_last]

/-- Only bits 4:0 of a shift operand count (R73). -/
theorem shiftAmount_eq (c : Word) : shiftAmount c = c.toNat % 32 := by simp [shiftAmount]

end Sys2Proof.Machine
end

