-- ==== Sys2Proof/Laws/Float.lean ====
section
/-! SUPPORT. What the parts of the floating-point units compute, in integers: the fields of a packed word, and the
adder's terms, sum, rounding and normalisation. -/

namespace Sys2Proof.Machine

/-! ### Fields (R85) -/

theorem floatExp_lt (w : Word) : floatExp w < 256 := (w.extractLsb' 23 8).isLt

theorem floatFrac_lt (w : Word) : floatFrac w < 2 ^ 23 := (w.extractLsb' 0 23).isLt

theorem floatMant_bounds (w : Word) : 2 ^ 23 ≤ floatMant w ∧ floatMant w < 2 ^ 24 := by
  have := floatFrac_lt w
  unfold floatMant
  omega

/-- "Zero" to the adder is a word whose low 31 bits are zeros. -/
theorem floatIsZero_iff (w : Word) : floatIsZero w = true ↔ w.toNat % 2 ^ 31 = 0 := by
  rw [floatIsZero, beq_iff_eq, ← BitVec.toNat_inj, BitVec.extractLsb'_toNat]
  simp

section
variable (s : Bool) (e : BitVec 8) (f : BitVec 23)

theorem floatSign_packed : floatSign (BitVec.ofBool s ++ e ++ f) = s := by
  show ((BitVec.ofBool s ++ e : BitVec 9) ++ f).getLsbD 31 = s
  rw [BitVec.getLsbD_append, if_neg (by decide), BitVec.getLsbD_append, if_neg (by decide)]
  simp

theorem floatExp_packed : floatExp (BitVec.ofBool s ++ e ++ f) = e.toNat := by
  have h : (BitVec.ofBool s ++ e ++ f).extractLsb' 23 8 = e :=
    (BitVec.extractLsb'_append_eq_of_le (v := 9) (w := 23) (by decide)).trans
      (BitVec.extractLsb'_append_eq_right (a := BitVec.ofBool s) (b := e))
  rw [floatExp, h]

theorem floatFrac_packed : floatFrac (BitVec.ofBool s ++ e ++ f) = f.toNat := by
  have h : (BitVec.ofBool s ++ e ++ f).extractLsb' 0 23 = f :=
    BitVec.extractLsb'_append_eq_right (a := (BitVec.ofBool s ++ e : BitVec 9)) (b := f)
  rw [floatFrac, h]
end

/-! ### The adder (R87) -/

/-- Step 3's clamp at 31 changes no shift of a 25-bit extended mantissa. -/
theorem fadAlign_eq {m : Int} (h : m.natAbs < 2 ^ 25) (d : Nat) : fadAlign m d = m / 2 ^ d := by
  unfold fadAlign
  by_cases hd : d ≤ 31
  · rw [Nat.min_eq_left hd]; norm_cast
  · rw [Nat.min_eq_right (by omega)]
    have hp : (2 : Int) ^ 31 ≤ 2 ^ d := by exact_mod_cast Nat.pow_le_pow_right (by decide) (by omega : 31 ≤ d)
    rcases Int.lt_or_le m 0 with hm | hm
    · rw [Int.ediv_eq_neg_one_of_neg_of_le hm (by omega), Int.ediv_eq_neg_one_of_neg_of_le hm (by omega)]
    · rw [Int.ediv_eq_zero_of_lt hm (by omega), Int.ediv_eq_zero_of_lt hm (by omega)]

/-- Step 4: a term of the working sum is the aligned mantissa, a negative operand's modulo 2^27. -/
theorem fadTerm_eq {neg : Bool} {m : Int} (h : if neg then -(2 ^ 25) ≤ m ∧ m < 0 else 0 ≤ m ∧ m < 2 ^ 25) :
    (fadTerm neg m : Int) = if neg then 2 ^ 27 + m else m := by
  cases neg <;> simp only [fadTerm, Bool.false_eq_true, if_false, if_true] at h ⊢ <;> omega

/-- Bit 26 of the working sum of a signed sum of less than 2^26 in magnitude is its sign. -/
theorem fadSign_eq {n : Nat} {sum : Int} (hn : (n : Int) % 2 ^ 27 = sum % 2 ^ 27) (hs : sum.natAbs < 2 ^ 26) :
    n.testBit 26 = decide (sum < 0) := by
  rw [Nat.testBit_eq_decide_div_mod_eq, Bool.eq_iff_iff, decide_eq_true_iff, decide_eq_true_iff]
  omega

/-- Step 5: the rounded magnitude of the working sum of a signed sum is its magnitude plus 1. -/
theorem fadRounded_eq {n : Nat} {sum : Int} (hn : (n : Int) % 2 ^ 27 = sum % 2 ^ 27) (hlt : n < 2 ^ 28)
    (hs : sum.natAbs < 2 ^ 26) : fadRounded n = sum.natAbs + 1 := by
  rw [fadRounded, fadMagnitude, fadSign_eq hn hs]
  rcases Int.lt_or_le sum 0 with h | h
  · rw [decide_eq_true h, if_pos rfl]; omega
  · rw [decide_eq_false (by omega), if_neg (by decide)]; omega

/-- Step 5's loop stops when the shifted significand reaches bit 24. -/
theorem fadShift_eq (k n t : Nat) (e : Int) (hk : k ≤ n) (h1 : 2 ^ 24 ≤ t * 2 ^ k) (h2 : t * 2 ^ k < 2 ^ 25) :
    fadShift n t e = (t * 2 ^ k, e - k) := by
  induction k generalizing n t e with
  | zero =>
    cases n with
    | zero => simp [fadShift]
    | succ n =>
      have hb : t.testBit 24 = true := by rw [Nat.testBit_eq_decide_div_mod_eq, decide_eq_true_iff]; omega
      simp [fadShift, hb]
  | succ k ih =>
    obtain ⟨n, rfl⟩ : ∃ j, n = j + 1 := ⟨n - 1, by omega⟩
    have hp : 1 ≤ 2 ^ k := Nat.one_le_two_pow
    have ht : t * 2 ^ (k + 1) = t * 2 * 2 ^ k := by rw [Nat.pow_succ]; ring
    have ht2 : t * 2 ≤ t * 2 * 2 ^ k := Nat.le_mul_of_pos_right _ hp
    have hb : t.testBit 24 = false := by rw [Nat.testBit_eq_decide_div_mod_eq, decide_eq_false_iff_not]; omega
    rw [fadShift, hb, if_neg (by decide), ih n (t * 2) (e - 1) (by omega) (by omega) (by omega), ht]
    push_cast
    congr 1
    ring

/-- Step 5: the normalised significand and exponent of a rounded magnitude `n` whose half reaches bit 24 after `k`
shifts. -/
theorem fadNormal_eq {sum n k : Nat} (e0 : Nat) (hn : fadRounded sum = n) (hlt : n < 2 ^ 26)
    (h1 : 2 ^ 24 ≤ n / 2 * 2 ^ k) (h2 : n / 2 * 2 ^ k < 2 ^ 25) :
    fadNormal sum e0 = (n / 2 * 2 ^ k, (e0 : Int) + 1 - k) := by
  have hpos : n / 2 ≠ 0 := by intro h0; rw [h0] at h1; omega
  have hk : k ≤ 24 := by
    by_contra hc
    have : 2 ^ 25 ≤ 2 ^ k := Nat.pow_le_pow_right (by decide) (by omega)
    have := Nat.le_mul_of_pos_left (2 ^ k) (by omega : 0 < n / 2)
    omega
  rw [fadNormal, hn]
  split
  · exact fadShift_eq k 24 _ _ hk h1 h2
  · have h : n / 2 = 1 := by omega
    rw [h] at h1 h2 ⊢
    have : k = 24 := by
      by_contra hc
      have : 2 ^ k ≤ 2 ^ 23 := Nat.pow_le_pow_right (by decide) (by omega)
      omega
    subst this
    rfl

/-- Step 6: an exponent of 0 to 255 and a significand that reaches bit 24 are packed. -/
theorem fadPack_fields {sum t : Nat} {e : Int} (h1 : 2 ^ 24 ≤ t) (h2 : t < 2 ^ 25) (he : 0 ≤ e) (he2 : e < 256) :
    floatSign (fadPack sum t e) = sum.testBit 26 ∧ (floatExp (fadPack sum t e) : Int) = e ∧
    floatMant (fadPack sum t e) = t / 2 := by
  have hb : (BitVec.ofInt 32 e).getLsbD 8 = false := by
    rw [BitVec.getLsbD, BitVec.toNat_ofInt, Nat.testBit_eq_decide_div_mod_eq, decide_eq_false_iff_not]; omega
  have hz : ¬ (t % 2 ^ 25 = 0 ∨ (BitVec.ofInt 32 e).getLsbD 8 = true) := by
    rw [hb]
    rintro (h | h)
    · omega
    · cases h
  rw [fadPack, if_neg hz, floatMant, floatSign_packed, floatExp_packed, floatFrac_packed]
  refine ⟨rfl, ?_, ?_⟩
  · rw [BitVec.extractLsb'_toNat, BitVec.toNat_ofInt]; simp only [Nat.shiftRight_zero]; omega
  · rw [BitVec.toNat_ofNat]; omega

/-- Step 6: an exponent from -256 to -1, or from 256 to 511, gives +0. -/
theorem fadPack_flushes {sum t : Nat} {e : Int} (h : -256 ≤ e ∧ e < 0 ∨ 256 ≤ e ∧ e < 512) : fadPack sum t e = 0#32 := by
  have hb : (BitVec.ofInt 32 e).getLsbD 8 = true := by
    rw [BitVec.getLsbD, BitVec.toNat_ofInt, Nat.testBit_eq_decide_div_mod_eq, decide_eq_true_iff]; omega
  rw [fadPack, if_pos (.inr hb)]

/-! ### Rounding and packing of FML and FDV (R90) -/

theorem floatSaturated_fields (s : Bool) :
    (floatSaturated s).toNat % 2 ^ 31 = 0x7FFFFFFF ∧ floatSign (floatSaturated s) = s := by
  cases s <;> decide

/-- A significand of 24 bits and an exponent of 1 to 255 are packed as they are. -/
theorem floatPack_fields (s : Bool) {e : Int} {r : Nat} (he : 1 ≤ e ∧ e ≤ 255) (hr : 2 ^ 23 ≤ r ∧ r < 2 ^ 24) :
    floatSign (floatPack s e r) = s ∧ (floatExp (floatPack s e r) : Int) = e ∧ floatMant (floatPack s e r) = r := by
  rw [floatPack, if_neg (by omega), packExp, if_neg (by omega), if_neg (by omega), floatMant, floatSign_packed,
    floatExp_packed, floatFrac_packed]
  refine ⟨rfl, ?_, ?_⟩
  · rw [BitVec.toNat_ofInt]; omega
  · rw [BitVec.toNat_ofNat]; omega

/-- A significand rounded up to 2^24 is packed as 2^23 with the next exponent. -/
theorem floatPack_carry (s : Bool) {e : Int} (he : 0 ≤ e ∧ e ≤ 254) :
    floatSign (floatPack s e (2 ^ 24)) = s ∧ (floatExp (floatPack s e (2 ^ 24)) : Int) = e + 1 ∧
    floatMant (floatPack s e (2 ^ 24)) = 2 ^ 23 := by
  rw [floatPack, if_pos rfl, packExp, if_neg (by omega), if_neg (by omega), floatMant, floatSign_packed,
    floatExp_packed, floatFrac_packed]
  refine ⟨rfl, ?_, by decide⟩
  rw [BitVec.toNat_ofInt]
  omega

/-- An exponent that stays below 1 gives +0. -/
theorem floatPack_flushes (s : Bool) {e : Int} {r : Nat} (h : e ≤ -1 ∨ e ≤ 0 ∧ r ≠ 2 ^ 24) :
    floatPack s e r = 0#32 := by
  unfold floatPack
  split <;> rw [packExp, if_neg (by omega), if_pos (by omega)]

/-- An exponent that reaches 256 gives the largest magnitude. -/
theorem floatPack_saturates (s : Bool) {e : Int} {r : Nat} (h : 256 ≤ e ∨ 255 ≤ e ∧ r = 2 ^ 24) :
    floatPack s e r = floatSaturated s := by
  unfold floatPack
  split <;> rw [packExp, if_pos (by omega)]

end Sys2Proof.Machine
end

