-- ==== Sys2Proof/Laws/PerInstr.lean ====
section
/-! SUPPORT. For each instruction: the word it is encoded to has the fixed bits of its row of spec/opcode_table.json. -/

namespace Sys2Proof.Laws

/-- The fixed bits of an instruction's row of spec/opcode_table.json: the row's `mask` and `match`. -/
def TableRow.bits : Instr → Word × Word
  | .mov _ _ => (0xA00F0000#32, 0x00000000#32)
  | .movu _ _ => (0xE00F0000#32, 0x60000000#32)
  | .movf _ => (0xF00F0000#32, 0x30000000#32)
  | .movh _ => (0xF00F0000#32, 0x20000000#32)
  | .lsl _ _ _ => (0x800F0000#32, 0x00010000#32)
  | .asr _ _ _ => (0x800F0000#32, 0x00020000#32)
  | .ror _ _ _ => (0x800F0000#32, 0x00030000#32)
  | .and _ _ _ => (0x800F0000#32, 0x00040000#32)
  | .ann _ _ _ => (0x800F0000#32, 0x00050000#32)
  | .ior _ _ _ => (0x800F0000#32, 0x00060000#32)
  | .xor _ _ _ => (0x800F0000#32, 0x00070000#32)
  | .add _ _ _ => (0x800F0000#32, 0x00080000#32)
  | .sub _ _ _ => (0x800F0000#32, 0x00090000#32)
  | .mul _ _ _ => (0xA00F0000#32, 0x000A0000#32)
  | .mulu _ _ _ => (0xA00F0000#32, 0x200A0000#32)
  | .div _ _ _ => (0x800F0000#32, 0x000B0000#32)
  | .fad _ _ _ _ _ => (0x800F0000#32, 0x000C0000#32)
  | .fsb _ _ _ _ _ => (0x800F0000#32, 0x000D0000#32)
  | .fml _ _ _ => (0x800F0000#32, 0x000E0000#32)
  | .fdv _ _ _ => (0x800F0000#32, 0x000F0000#32)
  | .ldw _ _ _ => (0xF0000000#32, 0x80000000#32)
  | .ldb _ _ _ => (0xF0000000#32, 0x90000000#32)
  | .stw _ _ _ => (0xF0000000#32, 0xA0000000#32)
  | .stb _ _ _ => (0xF0000000#32, 0xB0000000#32)
  | .bReg _ _ _ => (0xF0000000#32, 0xC0000000#32)
  | .blReg _ _ _ => (0xF0000000#32, 0xD0000000#32)
  | .bOff _ _ _ => (0xF0000000#32, 0xE0000000#32)
  | .blOff _ _ _ => (0xF0000000#32, 0xF0000000#32)

/-- The encoded word agrees with the instruction's row on every fixed bit (R55, R57 to R62). -/
def TableRow.Statement (i : Instr) : Prop := encode i &&& (TableRow.bits i).1 = (TableRow.bits i).2

/-- The bits of an appended word under a mask, part by part. -/
theorem append_and {v w : Nat} {x m r : BitVec v} {y n t : BitVec w} (hx : x &&& m = r) (hy : y &&& n = t) :
    (x ++ y) &&& (m ++ n) = r ++ t := by
  rw [BitVec.and_append, hx, hy]

theorem and_allOnes_four (x : BitVec 4) : x &&& 15#4 = x := BitVec.and_allOnes

theorem and_one_ofBool (x : Bool) : BitVec.ofBool x &&& 1#1 = BitVec.ofBool x := BitVec.and_allOnes

/-- A register-format word under a mask of its `q`, `u`, `v` and `op` fields. -/
theorem registerWord_and (q u v : Bool) (a b : Reg) (op : Opcode) (low : BitVec 16) (mq mu mv : BitVec 1) :
    registerWord q u v a b op low &&& (1#1 ++ mq ++ mu ++ mv ++ 0#4 ++ 0#4 ++ 15#4 ++ 0#16 : Word) =
      0#1 ++ (BitVec.ofBool q &&& mq) ++ (BitVec.ofBool u &&& mu) ++ (BitVec.ofBool v &&& mv) ++ 0#4 ++ 0#4 ++
        opcodeBits op ++ 0#16 :=
  append_and (append_and (append_and (append_and (append_and (append_and (append_and rfl rfl) rfl) rfl)
    BitVec.and_zero) BitVec.and_zero) (and_allOnes_four _)) BitVec.and_zero

/-- A memory-format word under a mask of its four top bits. -/
theorem memoryWord_and (u v : Bool) (a b : Reg) (off : BitVec 20) :
    memoryWord u v a b off &&& (3#2 ++ 1#1 ++ 1#1 ++ 0#4 ++ 0#4 ++ 0#20 : Word) =
      2#2 ++ BitVec.ofBool u ++ BitVec.ofBool v ++ 0#4 ++ 0#4 ++ 0#20 :=
  append_and (append_and (append_and (append_and (append_and rfl (and_one_ofBool u)) (and_one_ofBool v))
    BitVec.and_zero) BitVec.and_zero) BitVec.and_zero

/-- A branch-format word under a mask of its four top bits. -/
theorem branchWord_and (u v inv : Bool) (cond : Cond) (low : BitVec 24) :
    branchWord u v inv cond low &&& (3#2 ++ 1#1 ++ 1#1 ++ 0#1 ++ 0#3 ++ 0#24 : Word) =
      3#2 ++ BitVec.ofBool u ++ BitVec.ofBool v ++ 0#1 ++ 0#3 ++ 0#24 :=
  append_and (append_and (append_and (append_and (append_and rfl (and_one_ofBool u)) (and_one_ofBool v))
    BitVec.and_zero) BitVec.and_zero) BitVec.and_zero


theorem TableRow.mov (a : Reg) (c : Operand) : TableRow.Statement (.mov a c) :=
  (registerWord_and _ _ _ _ _ _ _ 0#1 1#1 0#1).trans (by simp only [BitVec.and_zero]; rfl)

theorem TableRow.movu (a : Reg) (value : BitVec 16) : TableRow.Statement (.movu a value) :=
  (registerWord_and _ _ _ _ _ _ _ 1#1 1#1 0#1).trans rfl

theorem TableRow.movf (a : Reg) : TableRow.Statement (.movf a) :=
  (registerWord_and _ _ _ _ _ _ _ 1#1 1#1 1#1).trans rfl

theorem TableRow.movh (a : Reg) : TableRow.Statement (.movh a) :=
  (registerWord_and _ _ _ _ _ _ _ 1#1 1#1 1#1).trans rfl

theorem TableRow.lsl (a b : Reg) (c : Operand) : TableRow.Statement (.lsl a b c) :=
  (registerWord_and _ _ _ _ _ _ _ 0#1 0#1 0#1).trans (by simp only [BitVec.and_zero]; rfl)

theorem TableRow.asr (a b : Reg) (c : Operand) : TableRow.Statement (.asr a b c) :=
  (registerWord_and _ _ _ _ _ _ _ 0#1 0#1 0#1).trans (by simp only [BitVec.and_zero]; rfl)

theorem TableRow.ror (a b : Reg) (c : Operand) : TableRow.Statement (.ror a b c) :=
  (registerWord_and _ _ _ _ _ _ _ 0#1 0#1 0#1).trans (by simp only [BitVec.and_zero]; rfl)

theorem TableRow.and (a b : Reg) (c : Operand) : TableRow.Statement (.and a b c) :=
  (registerWord_and _ _ _ _ _ _ _ 0#1 0#1 0#1).trans (by simp only [BitVec.and_zero]; rfl)

theorem TableRow.ann (a b : Reg) (c : Operand) : TableRow.Statement (.ann a b c) :=
  (registerWord_and _ _ _ _ _ _ _ 0#1 0#1 0#1).trans (by simp only [BitVec.and_zero]; rfl)

theorem TableRow.ior (a b : Reg) (c : Operand) : TableRow.Statement (.ior a b c) :=
  (registerWord_and _ _ _ _ _ _ _ 0#1 0#1 0#1).trans (by simp only [BitVec.and_zero]; rfl)

theorem TableRow.xor (a b : Reg) (c : Operand) : TableRow.Statement (.xor a b c) :=
  (registerWord_and _ _ _ _ _ _ _ 0#1 0#1 0#1).trans (by simp only [BitVec.and_zero]; rfl)

theorem TableRow.add (a b : Reg) (c : Operand) : TableRow.Statement (.add a b c) :=
  (registerWord_and _ _ _ _ _ _ _ 0#1 0#1 0#1).trans (by simp only [BitVec.and_zero]; rfl)

theorem TableRow.sub (a b : Reg) (c : Operand) : TableRow.Statement (.sub a b c) :=
  (registerWord_and _ _ _ _ _ _ _ 0#1 0#1 0#1).trans (by simp only [BitVec.and_zero]; rfl)

theorem TableRow.mul (a b : Reg) (c : Operand) : TableRow.Statement (.mul a b c) :=
  (registerWord_and _ _ _ _ _ _ _ 0#1 1#1 0#1).trans (by simp only [BitVec.and_zero]; rfl)

theorem TableRow.mulu (a b : Reg) (c : Operand) : TableRow.Statement (.mulu a b c) :=
  (registerWord_and _ _ _ _ _ _ _ 0#1 1#1 0#1).trans (by simp only [BitVec.and_zero]; rfl)

theorem TableRow.div (a b : Reg) (c : Operand) : TableRow.Statement (.div a b c) :=
  (registerWord_and _ _ _ _ _ _ _ 0#1 0#1 0#1).trans (by simp only [BitVec.and_zero]; rfl)

theorem TableRow.fad (a b : Reg) (u v : Bool) (c : Operand) : TableRow.Statement (.fad a b u v c) :=
  (registerWord_and _ _ _ _ _ _ _ 0#1 0#1 0#1).trans (by simp only [BitVec.and_zero]; rfl)

theorem TableRow.fsb (a b : Reg) (u v : Bool) (c : Operand) : TableRow.Statement (.fsb a b u v c) :=
  (registerWord_and _ _ _ _ _ _ _ 0#1 0#1 0#1).trans (by simp only [BitVec.and_zero]; rfl)

theorem TableRow.fml (a b : Reg) (c : Operand) : TableRow.Statement (.fml a b c) :=
  (registerWord_and _ _ _ _ _ _ _ 0#1 0#1 0#1).trans (by simp only [BitVec.and_zero]; rfl)

theorem TableRow.fdv (a b : Reg) (c : Operand) : TableRow.Statement (.fdv a b c) :=
  (registerWord_and _ _ _ _ _ _ _ 0#1 0#1 0#1).trans (by simp only [BitVec.and_zero]; rfl)

theorem TableRow.ldw (a b : Reg) (off : BitVec 20) : TableRow.Statement (.ldw a b off) :=
  memoryWord_and _ _ a b off

theorem TableRow.ldb (a b : Reg) (off : BitVec 20) : TableRow.Statement (.ldb a b off) :=
  memoryWord_and _ _ a b off

theorem TableRow.stw (a b : Reg) (off : BitVec 20) : TableRow.Statement (.stw a b off) :=
  memoryWord_and _ _ a b off

theorem TableRow.stb (a b : Reg) (off : BitVec 20) : TableRow.Statement (.stb a b off) :=
  memoryWord_and _ _ a b off

theorem TableRow.bReg (inv : Bool) (cond : Cond) (c : Reg) : TableRow.Statement (.bReg inv cond c) :=
  branchWord_and _ _ inv cond _

theorem TableRow.blReg (inv : Bool) (cond : Cond) (c : Reg) : TableRow.Statement (.blReg inv cond c) :=
  branchWord_and _ _ inv cond _

theorem TableRow.bOff (inv : Bool) (cond : Cond) (off : BitVec 24) : TableRow.Statement (.bOff inv cond off) :=
  branchWord_and _ _ inv cond off

theorem TableRow.blOff (inv : Bool) (cond : Cond) (off : BitVec 24) : TableRow.Statement (.blOff inv cond off) :=
  branchWord_and _ _ inv cond off

end Sys2Proof.Laws
end

