-- ==== Sys2Proof/Tests/Slice0.lean ====
section
/-! SUPPORT. Tests of single steps, with expected values from spec/95_test_vectors.md, and a state that meets the
hypotheses of each statement. -/

namespace Sys2Proof.Tests

open Sys2Proof.Machine

/-! ### Well-formedness: the check refuses a mode that disagrees with the immediate's fill (R57, R65) -/

theorem test_fad_fill_refused : ¬ (Instr.fad 1#4 2#4 false false (.imm true 5#16)).WellFormed := by decide
theorem test_fsb_fill_refused : ¬ (Instr.fsb 1#4 2#4 true true (.imm false 5#16)).WellFormed := by decide
theorem test_fad_fill_accepted : (Instr.fad 1#4 2#4 true true (.imm true 5#16)).WellFormed := by decide

/-! ### Decoding: words written out field by field from R57, R61 and R62 -/

theorem test_decode_mov :
    decodeTableWord 32 0b0_1_0_1_1110_0000_0000_1000000000000001 = some (.mov 14#4 (.imm true 0x8001#16)) := by decide
theorem test_decode_movu :
    decodeTableWord 32 0b0_1_1_0_0001_0000_0000_1010101111001101 = some (.movu 1#4 0xABCD#16) := by decide
theorem test_decode_movf :
    decodeTableWord 32 0b0_0_1_1_1001_0000_0000_0000000000000000 = some (.movf 9#4) := by decide
theorem test_decode_movh :
    decodeTableWord 32 0b0_0_1_0_0110_0000_0000_0000000000000000 = some (.movh 6#4) := by decide
theorem test_decode_lsl :
    decodeTableWord 32 0b0_0_0_0_0001_0010_0001_0000000000000011 = some (.lsl 1#4 2#4 (.reg 3#4)) := by decide
theorem test_decode_asr :
    decodeTableWord 32 0b0_1_0_0_0001_0010_0010_0000000000000100 = some (.asr 1#4 2#4 (.imm false 4#16)) := by decide
theorem test_decode_ror :
    decodeTableWord 32 0b0_0_0_0_1111_1000_0011_0000000000000100 = some (.ror 15#4 8#4 (.reg 4#4)) := by decide
theorem test_decode_and :
    decodeTableWord 32 0b0_1_0_0_0011_0101_0100_0000000011111111 = some (.and 3#4 5#4 (.imm false 0xFF#16)) := by decide
theorem test_decode_ann :
    decodeTableWord 32 0b0_0_0_0_0001_0010_0101_0000000000001100 = some (.ann 1#4 2#4 (.reg 12#4)) := by decide
theorem test_decode_ior :
    decodeTableWord 32 0b0_1_0_1_0001_0010_0110_0000000000000000 = some (.ior 1#4 2#4 (.imm true 0#16)) := by decide
theorem test_decode_xor :
    decodeTableWord 32 0b0_0_0_0_0001_0010_0111_0000000000000010 = some (.xor 1#4 2#4 (.reg 2#4)) := by decide
theorem test_decode_add :
    decodeTableWord 32 0b0_1_0_1_0001_0010_1000_1111111111111111 = some (.add 1#4 2#4 (.imm true 0xFFFF#16)) := by decide
theorem test_decode_sub :
    decodeTableWord 32 0b0_0_0_0_0001_0010_1001_0000000000000011 = some (.sub 1#4 2#4 (.reg 3#4)) := by decide
theorem test_decode_mul :
    decodeTableWord 32 0b0_0_0_0_0001_0010_1010_0000000000000011 = some (.mul 1#4 2#4 (.reg 3#4)) := by decide
theorem test_decode_mulu :
    decodeTableWord 32 0b0_1_1_0_0001_0010_1010_0000000000000010 = some (.mulu 1#4 2#4 (.imm false 2#16)) := by decide
theorem test_decode_div :
    decodeTableWord 32 0b0_0_0_0_0001_0010_1011_0000000000000011 = some (.div 1#4 2#4 (.reg 3#4)) := by decide
theorem test_decode_fad :
    decodeTableWord 32 0b0_0_1_0_0001_0010_1100_0000000000000011 = some (.fad 1#4 2#4 true false (.reg 3#4)) := by decide
theorem test_decode_fsb :
    decodeTableWord 32 0b0_1_0_1_0001_0010_1101_0000000000000101 = some (.fsb 1#4 2#4 false true (.imm true 5#16)) := by decide
theorem test_decode_fml :
    decodeTableWord 32 0b0_0_0_0_0001_0010_1110_0000000000000011 = some (.fml 1#4 2#4 (.reg 3#4)) := by decide
theorem test_decode_fdv :
    decodeTableWord 32 0b0_0_0_0_0001_0010_1111_0000000000000011 = some (.fdv 1#4 2#4 (.reg 3#4)) := by decide
theorem test_decode_ldw :
    decodeTableWord 32 0b10_0_0_0001_0010_11111111111111111100 = some (.ldw 1#4 2#4 0xFFFFC#20) := by decide
theorem test_decode_ldb :
    decodeTableWord 32 0b10_0_1_0001_0010_00000000000000000011 = some (.ldb 1#4 2#4 3#20) := by decide
theorem test_decode_stw :
    decodeTableWord 32 0b10_1_0_0001_0010_00000000000000001000 = some (.stw 1#4 2#4 8#20) := by decide
theorem test_decode_stb :
    decodeTableWord 32 0b10_1_1_0001_0010_10000000000000000000 = some (.stb 1#4 2#4 0x80000#20) := by decide
theorem test_decode_bReg :
    decodeTableWord 32 0b11_0_0_1_111_00000000000000000000_0011 = some (.bReg true .always 3#4) := by decide
theorem test_decode_blReg :
    decodeTableWord 32 0b11_0_1_0_110_00000000000000000000_1111 = some (.blReg false .le 15#4) := by decide
theorem test_decode_bOff :
    decodeTableWord 32 0b11_1_0_1_001_111111111111111100000000 = some (.bOff true .eq 0xFFFF00#24) := by decide
theorem test_decode_blOff :
    decodeTableWord 32 0b11_1_1_0_101_000000000000000000010000 = some (.blOff false .lt 0x10#24) := by decide

/-- `u` and `v` are ignored where no rule reads them (R65): ADD with `u`, LSL of a register with `v`. -/
theorem test_decode_ignores_u : decodeTableWord 32 0x21280003 = some (.add 1#4 2#4 (.reg 3#4)) := by decide
/-- NOP and RET (R67). -/
theorem test_decode_nop : decodeTableWord 32 0xCF000000 = some nopInstr := by decide
theorem test_decode_ret : decodeTableWord 32 0xC700000F = some retInstr := by decide
theorem test_ldi_long :
    ldiInstrs 1#4 0xABCD1234#32 = [.movu 1#4 0xABCD#16, .ior 1#4 1#4 (.imm false 0x1234#16)] := by
  decide
theorem test_decode_truncated : decode [0#8, 1#8, 2#8] = .error (.truncated 3) := by decide

/-! ### One step on a small state: the conventions of 95_test_vectors section 1 -/

/-- The construction state with some registers set and the pc in RAM. -/
def start (regs : List (Reg × Word)) : State :=
  regs.foldl (fun s p => { s with regs := s.regs.set p.1.toNat p.2 p.1.isLt }) { State.reset with pc := 0x100#32 }

/-- The state after one step that fetches `w`. -/
def after (w : Nat) (s : State) : State :=
  match step (s.withFetchWord 32 w) with
  | .next t => t
  | .fault _ => s
  | .refused _ => s

/-- `NZCV`. -/
def flags (s : State) : List Bool := [s.flagN, s.flagZ, s.flagC, s.flagV]

/-- A state with the flags given as `NZCV`. -/
def withFlags (n z c v : Bool) (s : State) : State := { s with flagN := n, flagZ := z, flagC := c, flagV := v }

/-- A RAM word set. -/
def withWord (a : Nat) (v : Word) (s : State) : State := { s with ram := s.ram.writeWord a v }

/-- I2 -/
theorem test_mov_fill_I2 :
    let t := after 0x51000005 (start [])
    t.reg 1#4 = 0xFFFF0005#32 ∧ flags t = [true, false, false, false] := by
  decide
/-- I3 -/
theorem test_mov_zero_I3 :
    let t := after 0x41000000 (withFlags true false false false (start [(1#4, 0x00000007#32)]))
    t.reg 1#4 = 0x00000000#32 ∧ flags t = [false, true, false, false] := by
  decide
/-- I5 -/
theorem test_movu_I5 :
    let t := after 0x6100ABCD (start [])
    t.reg 1#4 = 0xABCD0000#32 ∧ flags t = [true, false, false, false] := by
  decide
/-- I7 -/
theorem test_movf_I7 :
    let t := after 0x31000000 (withFlags true false true false (start []))
    t.reg 1#4 = 0xA00000D0#32 ∧ flags t = [true, false, true, false] := by
  decide
/-- I8 -/
theorem test_movf_I8 :
    let t := after 0x31000000 (withFlags false true false true (start []))
    t.reg 1#4 = 0x500000D0#32 ∧ flags t = [false, false, false, true] := by
  decide
/-- I9 -/
theorem test_movh_I9 :
    let t := after 0x21000000 { start [] with h := 0x89ABCDEF#32 }
    t.reg 1#4 = 0x89ABCDEF#32 ∧ flags t = [true, false, false, false] := by
  decide
/-- I12: the amount is taken modulo 32 -/
theorem test_lsl_I12 :
    let t := after 0x01210003 (start [(2#4, 0x00000001#32), (3#4, 0x00000020#32)])
    t.reg 1#4 = 0x00000001#32 ∧ flags t = [false, false, false, false] := by
  decide
/-- I15 -/
theorem test_asr_I15 :
    let t := after 0x4122001F (start [(2#4, 0x80000000#32)])
    t.reg 1#4 = 0xFFFFFFFF#32 ∧ flags t = [true, false, false, false] := by
  decide
/-- I18 -/
theorem test_ror_I18 :
    let t := after 0x41230021 (start [(2#4, 0x00000003#32)])
    t.reg 1#4 = 0x80000001#32 ∧ flags t = [true, false, false, false] := by
  decide
/-- I20 -/
theorem test_and_I20 :
    let t := after 0x412400FF (start [(2#4, 0x12345600#32)])
    t.reg 1#4 = 0x00000000#32 ∧ flags t = [false, true, false, false] := by
  decide
/-- I21 -/
theorem test_ann_I21 :
    let t := after 0x01250003 (start [(2#4, 0xFFFFFFFF#32), (3#4, 0x0000FFFF#32)])
    t.reg 1#4 = 0xFFFF0000#32 ∧ flags t = [true, false, false, false] := by
  decide
/-- I24 -/
theorem test_ior_I24 :
    let t := after 0x51260000 (start [(2#4, 0x00000001#32)])
    t.reg 1#4 = 0xFFFF0001#32 ∧ flags t = [true, false, false, false] := by
  decide
/-- I25 -/
theorem test_xor_I25 :
    let t := after 0x01270002 (withFlags true false true true (start [(2#4, 0xDEADBEEF#32)]))
    t.reg 1#4 = 0x00000000#32 ∧ flags t = [false, true, true, true] := by
  decide
/-- I28 -/
theorem test_add_I28 :
    let t := after 0x01280003 (start [(2#4, 0x80000000#32), (3#4, 0x80000000#32)])
    t.reg 1#4 = 0x00000000#32 ∧ flags t = [false, true, true, true] := by
  decide
/-- I31: `u` adds no carry -/
theorem test_add_I31 :
    let t := after 0x21280003 (withFlags false false true false (start [(2#4, 0x00000001#32), (3#4, 0x00000002#32)]))
    t.reg 1#4 = 0x00000003#32 ∧ flags t = [false, false, false, false] := by
  decide
/-- I34 -/
theorem test_sub_I34 :
    let t := after 0x41290001 (start [(2#4, 0x80000000#32)])
    t.reg 1#4 = 0x7FFFFFFF#32 ∧ flags t = [false, false, false, true] := by
  decide
/-- I35 -/
theorem test_sub_I35 :
    let t := after 0x01290003 (start [(2#4, 0x00000000#32), (3#4, 0x80000000#32)])
    t.reg 1#4 = 0x80000000#32 ∧ flags t = [true, false, true, true] := by
  decide
/-- I39 -/
theorem test_mul_I39 :
    let t := after 0x412A0002 (start [(2#4, 0xFFFFFFFF#32)])
    t.reg 1#4 = 0xFFFFFFFE#32 ∧ flags t = [true, false, false, false] ∧ t.h = 0xFFFFFFFF#32 := by
  decide
/-- I42 -/
theorem test_mul_I42 :
    let t := after 0x012A0002 (withFlags false false true true (start [(2#4, 0x80000000#32)]))
    t.reg 1#4 = 0x00000000#32 ∧ flags t = [false, true, true, true] ∧ t.h = 0x40000000#32 := by
  decide
/-- I41 -/
theorem test_mulu_I41 :
    let t := after 0x212A0003 (start [(2#4, 0xFFFFFFFF#32), (3#4, 0xFFFFFFFF#32)])
    t.reg 1#4 = 0x00000001#32 ∧ flags t = [false, false, false, false] ∧ t.h = 0xFFFFFFFE#32 := by
  decide
/-- I49 -/
theorem test_div_I49 :
    let t := after 0x012B0003 (start [(2#4, 0x80000000#32), (3#4, 0x7FFFFFFF#32)])
    t.reg 1#4 = 0xFFFFFFFE#32 ∧ flags t = [true, false, false, false] ∧ t.h = 0x7FFFFFFE#32 := by
  decide
/-- I52: only the diagnostic, which holds the DIV's own index and the divisor -/
theorem test_div_I52 :
    let t := after 0x012B0003 (withFlags true false true false (start [(1#4, 0x11111111#32), (2#4, 0x00000064#32), (3#4, 0xFFFFFFFB#32)]))
    t.reg 1#4 = 0x11111111#32 ∧ flags t = [true, false, true, false] ∧ t.h = 0x00000000#32 ∧ t.log = [.divNonPositive 0x100#32 0xFFFFFFFB#32] := by
  decide
/-- F9: not the IEEE sum -/
theorem test_fad_F9 :
    let t := after 0x012C0003 (start [(2#4, 0x3F800000#32), (3#4, 0xB3800000#32)])
    t.reg 1#4 = 0x3F800000#32 ∧ flags t = [false, false, false, false] := by
  decide
/-- F22: FLOOR -2.5 -/
theorem test_fad_floor_F22 :
    let t := after 0x112C0003 (start [(2#4, 0xC0200000#32), (3#4, 0x4B000000#32)])
    t.reg 1#4 = 0xFFFFFFFD#32 ∧ flags t = [true, false, false, false] := by
  decide
/-- F27 -/
theorem test_fsb_F27 :
    let t := after 0x012D0003 (start [(2#4, 0x40400000#32), (3#4, 0x3F800000#32)])
    t.reg 1#4 = 0x40000000#32 ∧ flags t = [false, false, false, false] := by
  decide
/-- F30 -/
theorem test_fsb_F30 :
    let t := after 0x112D0003 (start [(2#4, 0x40200000#32), (3#4, 0x4B000000#32)])
    t.reg 1#4 = 0xFF000002#32 ∧ flags t = [true, false, false, false] := by
  decide
/-- F34: a tie rounds up -/
theorem test_fml_F34 :
    let t := after 0x012E0003 (start [(2#4, 0x3FC00000#32), (3#4, 0x3F800003#32)])
    t.reg 1#4 = 0x3FC00005#32 ∧ flags t = [false, false, false, false] := by
  decide
/-- F36 -/
theorem test_fml_F36 :
    let t := after 0x012E0003 (start [(2#4, 0xFF000000#32), (3#4, 0x7F000000#32)])
    t.reg 1#4 = 0xFFFFFFFF#32 ∧ flags t = [true, false, false, false] := by
  decide
/-- F43 -/
theorem test_fdv_F43 :
    let t := after 0x012F0003 (start [(2#4, 0xBF800000#32), (3#4, 0x40400000#32)])
    t.reg 1#4 = 0xBEAAAAAB#32 ∧ flags t = [true, false, false, false] := by
  decide
/-- F46 -/
theorem test_fdv_F46 :
    let t := after 0x012F0003 (start [(2#4, 0xBF800000#32), (3#4, 0x80000000#32)])
    t.reg 1#4 = 0x7FFFFFFF#32 ∧ flags t = [false, false, false, false] := by
  decide
/-- L2 -/
theorem test_ldw_L2 :
    let t := after 0x812FFFFC (withWord 0x100 0x80000000#32 (start [(2#4, 0x00000104#32)]))
    t.reg 1#4 = 0x80000000#32 ∧ flags t = [true, false, false, false] := by
  decide
/-- M21, M1: MMIO wins over ROM; a timer read decrements `progress` -/
theorem test_ldw_M21 :
    let t := after 0x81200000 ({ start [(2#4, 0xFFFFFFC0#32)] with timer := 7#32 })
    t.reg 1#4 = 0x00000007#32 ∧ flags t = [false, false, false, false] ∧ t.progress = 19 := by
  decide
/-- L7: zero-extended -/
theorem test_ldb_L7 :
    let t := after 0x91200003 (withWord 0x100 0x81223344#32 (start [(2#4, 0x00000100#32)]))
    t.reg 1#4 = 0x00000081#32 ∧ flags t = [false, false, false, false] := by
  decide
/-- M7: no register at offset 5 -/
theorem test_ldb_M7 :
    let t := after 0x91200005 ({ start [(2#4, 0xFFFFFFC0#32)] with switches := 0x1234#32 })
    t.reg 1#4 = 0x00000000#32 ∧ flags t = [false, true, false, false] := by
  decide
/-- L8 -/
theorem test_stw_L8 :
    let t := after 0xA1200008 (start [(1#4, 0xCAFEBABE#32), (2#4, 0x100#32)])
    t.ram.readWord 0x108 = 0xCAFEBABE#32 ∧ flags t = [false, false, false, false] := by
  decide
/-- DM2, after `consumeDamage()`: a store at column 5, row 10 marks exactly that point -/
theorem test_stw_damage :
    (after 0xA1200000 (start [(1#4, 1#32), (2#4, 0xE8414#32)]).consumeDamage.2).damage = ⟨5, 10, 5, 10⟩ := by
  decide
/-- L9 -/
theorem test_stb_L9 :
    (after 0xB1200001 (withWord 0x100 0x11223344#32 (start [(1#4, 0x1FF#32), (2#4, 0x100#32)]))).ram.readWord 0x100 =
      0x1122FF44#32 := by
  decide
/-- M5: one zero-extended write -/
theorem test_stb_M5 :
    (after 0xB1200004 (start [(1#4, 0x1FF#32), (2#4, 0xFFFFFFC0#32)])).leds = 0xFF#32 := by
  decide
/-- B9: the low two bits of the target are dropped -/
theorem test_bReg_B9 : (after 0xC7000003 (start [(3#4, 0x403#32)])).pc = 0x100#32 := by decide
/-- B11: the target register is read after the link write -/
theorem test_blReg_B11 :
    let t := after 0xD700000F { start [(15#4, 0x1000#32)] with pc := 0x200#32 }
    t.pc = 0x201#32 ∧ t.reg 15#4 = 0x804#32 := by
  decide
/-- B5 -/
theorem test_bOff_B5 : (after 0xE9FFFF00 (start [])).pc = 1#32 := by decide
/-- B3: not taken -/
theorem test_bOff_B3 : (after 0xE1000010 (start [])).pc = 0x101#32 := by decide
/-- B6 -/
theorem test_blOff_B6 :
    let t := after 0xF7000010 (start [(15#4, 0x12345678#32)])
    t.pc = 0x111#32 ∧ t.reg 15#4 = 0x404#32 := by
  decide
/-- R111: an invalid fetch -/
theorem test_invalid_fetch :
    step { State.reset with pc := 0x40000#32 } =
      .next { State.reset with pc := 0x3FFFFE00#32, log := [.invalidFetch 0x40000#32] } := rfl

/-! ### Memory: the canonical form -/

theorem test_write_zero_unlists : (withWord 0x100 0#32 (withWord 0x100 0x11223344#32 State.reset)).ram = [] := by
  decide
theorem test_reset_wf : State.reset.ram.wf ∧ State.reset.rom.wf := by decide

/-! ### Witnesses: hypotheses of the statements are met

Each is named after its statement. -/

/-- R2 holds a boundary address of RAM, ROM, MMIO or no region. -/
def based (a : Word) : State := start [(1#4, 0xA5A5A5A5#32), (2#4, a)]

/-- A state in which every device is attached. -/
def withDevices (s : State) : State :=
  { s with serialAttached := true, spiAttached := Vector.replicate 4 true, clipboardAttached := true }

theorem test_witness_DecodeEncodeRoundTrip : (Instr.fsb 1#4 2#4 false true (.imm true 5#16)).WellFormed := by decide

theorem test_witness_FetchReadsRamOrRom_ram :
    let s := { State.reset with pc := 0x3FFFF#32 }
    s.pc.toNat < s.params.memSize / 4 := by
  decide
theorem test_witness_FetchReadsRamOrRom_rom :
    let s := { State.reset with pc := 0x3FFFFFFF#32 }
    s.params.memSize / 4 ≤ s.pc.toNat ∧ s.params.romStart / 4 ≤ s.pc.toNat ∧
      s.pc.toNat < s.params.romStart / 4 + s.params.romWords := by
  decide
theorem test_witness_FetchReadsRamOrRom_none :
    let s := { State.reset with pc := 0x40000000#32 }
    s.params.memSize / 4 ≤ s.pc.toNat ∧
      (s.pc.toNat < s.params.romStart / 4 ∨ s.params.romStart / 4 + s.params.romWords ≤ s.pc.toNat) := by
  decide

theorem test_witness_StepRunsDecodedInstruction :
    let s := (start []).withFetchWord 32 0x41001234
    s.fetch = some 0x41001234#32 ∧ (Instr.mov 1#4 (.imm false 0x1234#16)).WellFormed ∧
      decode (bytesOfWord 0x41001234#32) = .ok (.mov 1#4 (.imm false 0x1234#16), []) := by
  decide

theorem test_witness_InvalidFetchResetsPcOnly : ({ State.reset with pc := 0x40000#32 } : State).fetch = none := by
  decide

/-- A state that holds bytes, a key and a rectangle, and what it steps to. -/
theorem test_witness_StepKeepsInvariant :
    let s := { (based 0xE7F00#32).withFetchWord 32 0xA1200000 with keys := [0x1C#8], damage := ⟨1, 2, 3, 4⟩ }
    s.Inv ∧ ∃ t, step s = .next t ∧ t.ram ≠ s.ram :=
  ⟨by decide, _, rfl, by decide +kernel⟩

theorem test_witness_ResetHasInvariant :
    Config.defaultParams.wf ∧ ({ Config.defaultParams with romWords := 1, fbWidth := 1, fbHeight := 1 } : Config.Params).wf := by
  decide

theorem test_witness_PlacedInstructionRunsNext :
    let s := { State.reset with pc := 0x40000#32 }
    s.params.wf ∧ s.ram.wf ∧ s.rom.wf ∧ State.reset.params.wf := by
  decide

theorem test_witness_ConstructionState :
    ([0xE7FFFFFF#32, 5#32] : List Word).length = ({ Config.defaultParams with romWords := 2 } : Config.Params).romWords := by
  decide

/-- A machine whose ROM and RAM are zeros runs its budget; one that polls the timer stops short. -/
theorem test_witness_RunFollowsStep_budget :
    ∃ t, (start []).run 2 = (2, .next t) ∧ ∃ u, step t = .next u :=
  ⟨_, rfl, _, rfl⟩
theorem test_witness_RunFollowsStep_progress :
    let s := { (based 0xFFFFFFC0#32).withFetchWord 32 0x83200000 with
      params := { Config.defaultParams with progressInit := 1 } }
    ∃ t, s.run 5 = (1, .next t) ∧ t.progress = 0 := by
  exact ⟨_, rfl, rfl⟩

/-- A store to RAM for the statements about what no step changes. -/
theorem test_witness_StepKeepsRomAndHostInputs : ∃ t, step ((start []).withFetchWord 32 0xA1200000) = .next t := ⟨_, rfl⟩
/-- A load: it is none of the instructions that write `C`, `V`, `H` or the pc. -/
theorem test_witness_SpecialStateOnlyByNamedInstructions :
    ∃ t, exec (.ldw 1#4 2#4 0#20) (based 0x100#32) = .next t := ⟨_, rfl⟩
/-- A load and a taken BL have a destination; a store, an untaken BL and a DIV by zero have none. -/
theorem test_witness_SignZeroFollowTheWrittenRegister :
    (∃ t, exec (.ldw 1#4 2#4 0#20) (based 0x100#32) = .next t) ∧
    (based 0#32).destination (.ldw 1#4 2#4 0#20) = some 1#4 ∧
    (based 0#32).destination (.blOff false .always 5#24) = some 15#4 ∧
    (∃ t, exec (.stw 1#4 2#4 0#20) (based 0x100#32) = .next t) ∧
    (based 0#32).destination (.stw 1#4 2#4 0#20) = none ∧
    (based 0#32).destination (.blOff false .eq 5#24) = none ∧
    (based 0#32).destination (.div 1#4 2#4 (.imm false 0#16)) = none :=
  ⟨⟨_, rfl⟩, by decide, by decide, ⟨_, rfl⟩, by decide, by decide, by decide⟩
/-- A read of an attached SPI device makes one call. -/
theorem test_witness_AtMostOneDeviceCall :
    ∃ t, step ((withDevices (based 0xFFFFFFC0#32)).withFetchWord 32 0x81200010) = .next t ∧ t.deviceCalls.length = 1 :=
  ⟨_, rfl, rfl⟩
theorem test_witness_DamageNeverShrinks :
    ∃ t, step ((based 0xE7F00#32).consumeDamage.2.withFetchWord 32 0xA1200000) = .next t ∧ t.damage = ⟨0, 0, 0, 0⟩ :=
  ⟨_, rfl, by decide⟩
/-- An invalid fetch, and a DIV by zero. -/
theorem test_witness_AtMostOneEventPerStep :
    (∃ t, step { State.reset with pc := 0x40000#32 } = .next t) ∧
    ∃ t, step ((start []).withFetchWord 32 0x412B0000) = .next t ∧ t.log = [.divNonPositive 0x100#32 0#32] :=
  ⟨⟨_, rfl⟩, _, rfl, by decide⟩

theorem test_witness_ProgressOnlyByPollingLoads_timer :
    let s := based 0xFFFFFFC0#32
    s.params.wf ∧ (s.effectiveAddress 2#4 0#20).toNat = s.params.ioStart := by
  decide
theorem test_witness_ProgressOnlyByPollingLoads_mouse :
    let s := based 0xFFFFFFC0#32
    (s.effectiveAddress 2#4 24#20).toNat = s.params.ioStart + 24 ∧ s.keys = [] := by
  decide
theorem test_witness_ProgressOnlyByPollingLoads_other :
    let s := { based 0xFFFFFFC0#32 with keys := [0x1C#8] }
    (s.effectiveAddress 2#4 24#20).toNat ≠ s.params.ioStart ∧ s.keys ≠ [] := by
  decide

theorem test_witness_RamChangedOnlyByStores :
    ∃ t, exec (.stw 1#4 2#4 0#20) (based 0x100#32) = .next t ∧ t.ram.read 0x103 ≠ (based 0x100#32).ram.read 0x103 :=
  ⟨_, rfl, by decide⟩

theorem test_witness_MovfWritesFlagsWord : State.reset.params.flagsTag ≠ 0#28 := by decide

theorem test_witness_DivFloors :
    0 < ((start [(3#4, 1#32)]).operand (.reg 3#4)).toInt ∧
    0 < ((start [(3#4, 0x7FFFFFFF#32)]).operand (.reg 3#4)).toInt := by
  decide
theorem test_witness_DivNonPositiveOnlyLogs :
    ((start []).operand (.imm false 0#16)).toInt ≤ 0 ∧ ((start []).operand (.imm true 0xFFFF#16)).toInt ≤ 0 := by
  decide

theorem test_witness_FloatAddZeroShortCircuits :
    (0x80000000#32).toNat % 2 ^ 31 = 0 ∧ (1#32).toNat % 2 ^ 31 ≠ 0 := by
  decide
theorem test_witness_FloatAddCommutes : (0#32).toNat % 2 ^ 31 ≠ 0 ∨ (0xFFFFFFFF#32).toNat % 2 ^ 31 ≠ 0 := by decide
/-- F11: exponent 255 is kept, with `k = 0`. -/
theorem test_witness_FloatAddCommutes_top :
    let x := 0x7F7FFFFF#32
    (x.toNat % 2 ^ 31 ≠ 0 ∧ (33554430 : Int) + 33554430 / 2 ^ 0 = signedMag (floatSign x) (2 * floatMant x) +
      signedMag (floatSign x) (2 * floatMant x) / 2 ^ (floatExp x - floatExp x)) ∧
    2 ^ 24 ≤ (67108860 + 1) / 2 * 2 ^ 0 ∧ (67108860 + 1) / 2 * 2 ^ 0 < 2 ^ 25 ∧ floatExp x + 1 = 255 := by
  decide
/-- An exponent of 256, with `k = 0`, and a sum of 0. -/
theorem test_witness_FloatAddCommutes_overflow :
    let x := 0x7F800000#32
    ((33554432 : Int) = signedMag (floatSign x) (2 * floatMant x) +
      signedMag (floatSign x) (2 * floatMant x) / 2 ^ (floatExp x - floatExp x)) ∧
    2 ^ 24 ≤ (33554432 + 1) / 2 * 2 ^ 0 ∧ (33554432 + 1) / 2 * 2 ^ 0 < 2 ^ 25 ∧ 256 + 0 ≤ floatExp x + 1 ∧
    ((0 : Int) = signedMag (floatSign x) (2 * floatMant x) +
      signedMag (floatSign 0xFF800000#32) (2 * floatMant 0xFF800000#32) / 2 ^ (floatExp x - floatExp 0xFF800000#32)) ∧
    (0 + 1) / 2 = 0 := by
  decide
/-- A sum of -2 at exponent 0, with `k = 24`: the exponent falls below 0. -/
theorem test_witness_FloatAddCommutes_underflow :
    (-2 : Int) = signedMag (floatSign 1#32) (2 * floatMant 1#32) +
      signedMag (floatSign 0x80000002#32) (2 * floatMant 0x80000002#32) / 2 ^ (floatExp 1#32 - floatExp 0x80000002#32) ∧
    2 ^ 24 ≤ (2 + 1) / 2 * 2 ^ 24 ∧ (2 + 1) / 2 * 2 ^ 24 < 2 ^ 25 ∧ floatExp 1#32 + 1 < 24 := by
  decide
/-- The -0 that R87's pseudocode packs (notes/assumptions/13.md): a sum of -2^23, with `k = 2` and exponent 0. -/
theorem test_witness_FloatAddCommutes_minus_zero :
    (-8388608 : Int) = signedMag (floatSign 0x80800001#32) (2 * floatMant 0x80800001#32) +
      signedMag (floatSign 2#32) (2 * floatMant 2#32) / 2 ^ (floatExp 0x80800001#32 - floatExp 2#32) ∧
    (8388608 + 1) / 2 * 2 ^ 2 = 2 ^ 24 ∧ floatExp 0x80800001#32 + 1 = 2 ∧
    floatAdd false false 0x80800001#32 2#32 = 0x80000000#32 := by
  decide
theorem test_witness_FloatCancellationIsZero : (1#32).toNat % 2 ^ 31 ≠ 0 ∧ (0xFFFFFFFF#32).toNat % 2 ^ 31 ≠ 0 := by
  decide
/-- Both ends of the range of FLT, and zero. -/
theorem test_witness_FltConvertsExactly :
    let s := start [(2#4, 0xFF800000#32), (3#4, 0x4B000000#32), (4#4, 0x007FFFFF#32)]
    s.reg 3#4 = 0x4B000000#32 ∧ s.reg 2#4 = BitVec.ofInt 32 (-(2 ^ 23)) ∧ s.reg 4#4 = BitVec.ofInt 32 (2 ^ 23 - 1) ∧
      s.reg 5#4 = BitVec.ofInt 32 0 := by
  decide
theorem test_witness_FloorConvertsExactly :
    let s := start [(2#4, 0xCB7FFFFF#32), (3#4, 0x4B000000#32)]
    s.reg 3#4 = 0x4B000000#32 ∧ floatExp (s.reg 2#4) = 150 ∧ floatExp (s.reg 5#4) ≤ 150 := by
  decide

/-- FML: an operand whose exponent field is 0, and exponent sums 383, 126, 128 and 381. -/
theorem test_witness_FloatMulRounds :
    floatExp 0x007FFFFF#32 = 0 ∧ floatExp 0x7F800000#32 + floatExp 0x40000000#32 = 383 ∧
    floatExp 0x00800000#32 + floatExp 0x3E800000#32 = 126 ∧ floatExp 0x00800000#32 + floatExp 0x3F800000#32 = 128 ∧
    floatExp 0x7F000000#32 + floatExp 0x3F800000#32 = 381 := by
  decide
/-- FML: exponent sums 382 and 127, each with a product that rounds to 2^47 or more and one that does not. -/
theorem test_witness_FloatMulRounds_edges :
    floatExp 0x7FFFFFFF#32 + floatExp 0x3FFFFFFF#32 = 382 ∧
    2 ^ 47 ≤ floatMant 0x7FFFFFFF#32 * floatMant 0x3FFFFFFF#32 + 2 ^ 22 ∧
    floatExp 0x7F800000#32 + floatExp 0x3F800000#32 = 382 ∧
    floatMant 0x7F800000#32 * floatMant 0x3F800000#32 + 2 ^ 22 < 2 ^ 47 ∧
    floatExp 0x00FFFFFF#32 + floatExp 0x3F7FFFFF#32 = 127 ∧
    2 ^ 47 ≤ floatMant 0x00FFFFFF#32 * floatMant 0x3F7FFFFF#32 + 2 ^ 22 ∧
    floatExp 0x00800000#32 + floatExp 0x3F000000#32 = 127 ∧
    floatMant 0x00800000#32 * floatMant 0x3F000000#32 + 2 ^ 22 < 2 ^ 47 := by
  decide
/-- FDV: a zero dividend and divisor, and exponent differences 130, -127, -125 and 128. -/
theorem test_witness_FloatDivRounds :
    floatExp 0x80000000#32 = 0 ∧ (floatExp 0x41800000#32 : Int) - floatExp 0x00800000#32 = 130 ∧
    (floatExp 0x00800000#32 : Int) - floatExp 0x40000000#32 = -127 ∧
    (floatExp 0x00800000#32 : Int) - floatExp 0x3F000000#32 = -125 ∧
    (floatExp 0x40800000#32 : Int) - floatExp 0x00800000#32 = 128 := by
  decide
/-- FDV: exponent differences 129 and -126, each with either order of the significands. -/
theorem test_witness_FloatDivRounds_edges :
    (floatExp 0x41000000#32 : Int) - floatExp 0x00800001#32 = 129 ∧
    (floatExp 0x00800001#32 : Int) - floatExp 0x3F800000#32 = -126 ∧
    floatMant 0x41000000#32 < floatMant 0x00800001#32 ∧ floatMant 0x3F800000#32 ≤ floatMant 0x00800001#32 ∧
    floatMant 0x00800000#32 ≤ floatMant 0x41000000#32 ∧ floatMant 0x00800000#32 < floatMant 0x3F800001#32 := by
  decide

/-- Loads: the last RAM byte, the first byte of no region, the first ROM byte and the last ROM byte below MMIO. -/
theorem test_witness_LoadWordResult :
    State.reset.params.wf ∧ ((based 0xFFFFF#32).effectiveAddress 2#4 0#20).toNat < State.reset.params.memSize ∧
    ((based 0x100000#32).effectiveAddress 2#4 0#20).toNat = State.reset.params.memSize ∧
    ((based 0xFFFFF800#32).effectiveAddress 2#4 0#20).toNat = State.reset.params.romStart ∧
    ((based 0xFFFFFFBF#32).effectiveAddress 2#4 0#20).toNat + 1 = State.reset.params.ioStart := by
  decide
theorem test_witness_LoadByteResult :
    State.reset.params.wf ∧ ((based 0#32).effectiveAddress 2#4 3#20).toNat < State.reset.params.ioStart := by
  decide
theorem test_witness_StoreWordToRam :
    (based 0xFFFFF#32).ram.wf ∧ ((based 0xFFFFF#32).effectiveAddress 2#4 0#20).toNat < State.reset.params.memSize ∧
    ((based 0xE7EFF#32).effectiveAddress 2#4 0#20).toNat < State.reset.params.displayStart := by
  decide
theorem test_witness_StoreByteToRam :
    (based 0#32).ram.wf ∧ ((based 0#32).effectiveAddress 2#4 0#20).toNat < State.reset.params.displayStart ∧
    State.reset.params.displayStart ≤ State.reset.params.memSize := by
  decide
theorem test_witness_StoreOutsideRamIgnored :
    State.reset.params.memSize ≤ ((based 0x100000#32).effectiveAddress 2#4 0#20).toNat ∧
    ((based 0xFFFFFFBF#32).effectiveAddress 2#4 0#20).toNat < State.reset.params.ioStart := by
  decide
theorem test_witness_StoreThenLoad :
    State.reset.params.wf ∧ State.reset.ram.wf ∧ (0xFFFFC#32).toNat < State.reset.params.memSize ∧
    (0xFFFFC#32).toNat / 4 = (0xFFFFF#32).toNat / 4 := by
  decide
/-- The last column of the last row, and the first column of the row beyond the framebuffer. -/
theorem test_witness_DisplayStoreMarksDamage :
    State.reset.params.wf ∧ ((based 0xFFEFC#32).effectiveAddress 2#4 0#20).toNat < State.reset.params.memSize ∧
    767 * State.reset.params.fbWidth + 31 = (0xFFEFC - State.reset.params.displayStart) / 4 ∧
    768 * State.reset.params.fbWidth + 0 = (0xFFF00 - State.reset.params.displayStart) / 4 ∧
    ((based 0xFFF00#32).effectiveAddress 2#4 0#20).toNat = 0xFFF00 := by
  decide

/-- MMIO: the window's first and last address and offsets 28 and 1. -/
theorem test_witness_MmioWordLoads :
    (based 0xFFFFFFC0#32).params.wf ∧
    ((based 0xFFFFFFC0#32).effectiveAddress 2#4 28#20).toNat = State.reset.params.ioStart + 28 ∧
    ((based 0xFFFFFFFF#32).effectiveAddress 2#4 0#20).toNat = State.reset.params.ioStart + 63 ∧
    63 ∉ [0, 4, 8, 12, 16, 20, 24, 28, 40, 44] ∧ ({ based 0#32 with keys := [0x1C#8] } : State).keys ≠ [] := by
  decide
theorem test_witness_DeviceWordLoads :
    ((based 0xFFFFFFC0#32).effectiveAddress 2#4 44#20).toNat = State.reset.params.ioStart + 44 ∧
    (withDevices (based 0#32)).attached (.spiData 3#2) = true ∧ (withDevices (based 0#32)).attached .clipboardData = true ∧
    (based 0#32).attached (.spiData 0#2) = false ∧ (based 0#32).attached .serialStatus = false := by
  decide
theorem test_witness_MmioWordStores :
    ((based 0xFFFFFFC0#32).effectiveAddress 2#4 20#20).toNat = State.reset.params.ioStart + 20 ∧
    20 ∈ [4, 8, 16, 20, 40, 44] ∧ 24 ∉ [4, 8, 16, 20, 40, 44] := by
  decide
theorem test_witness_MmioByteAccess :
    State.reset.params.wf ∧ State.reset.params.ioStart ≤ ((based 0xFFFFFFC0#32).effectiveAddress 2#4 4#20).toNat ∧
    ((based 0xFFFFFFC0#32).effectiveAddress 2#4 4#20).toNat % 4 = 0 ∧
    ((based 0xFFFFFFC0#32).effectiveAddress 2#4 5#20).toNat % 4 ≠ 0 := by
  decide
theorem test_witness_HostInputsArrive :
    ({ based 0#32 with keys := List.replicate 15 1#8 } : State).keys.length < State.reset.params.keyQueueCap ∧
    State.reset.params.keyQueueCap ≤ ({ based 0#32 with keys := List.replicate 16 1#8 } : State).keys.length := by
  decide

theorem test_witness_ConditionsAfterSubCompare :
    ∃ t, exec (.sub 1#4 2#4 (.reg 3#4)) (based 0x80000000#32) = .next t := ⟨_, rfl⟩
/-- A branch taken and one not taken. -/
theorem test_witness_BranchResults :
    (based 0#32).takes true .eq = true ∧ (based 0#32).takes false .eq = false := by
  decide
theorem test_witness_BranchLinkResults : (based 0#32).takes false .always = true ∧ (15#4 : Reg) = linkReg := by decide
theorem test_witness_ReturnUndoesCall :
    let s := { based 0#32 with pc := 0x3FFFFFFF#32 }
    s.pc.toNat < 2 ^ 30 ∧ ∃ t, exec (.blOff false .always 5#24) s = .next t ∧
      ∃ u, exec (.bReg false .always 15#4) t = .next u :=
  ⟨by decide, _, rfl, _, rfl⟩

end Sys2Proof.Tests
end

section
/-! The scope statements: what a step and a construction keep (R6, R26 to R30, R45, R128, R130), and the operands in
numbers (R58, R94). -/

namespace Sys2Proof.Machine

open Config (DevicePort)

/-! ### Listed addresses of a memory -/

/-- A word stored inside a range lists nothing outside it. -/
theorem writeWord_within {m : Memory} {lo hi base : Nat} (hm : m.within lo hi) (hlo : lo ≤ base)
    (hhi : base + 4 ≤ hi) (v : Word) : (m.writeWord base v).within lo hi := by
  intro p hp
  rcases mem_writeWord m base v p hp with h | ⟨h1, h2⟩
  · exact hm p h
  · omega

/-- The aligned word of an address below a multiple of 4 ends by it (R41). -/
theorem wordBase_add_four_le {a : Word} {n : Nat} (ha : a.toNat < n) (hn : n % 4 = 0) : wordBase a + 4 ≤ n := by
  unfold wordBase
  omega

/-- A ROM array is in canonical form, whatever the image (R27). -/
theorem romOfImage_wf (n base : Nat) (image : List Word) : (romOfImage n base image).wf := by
  induction n generalizing base image with
  | zero => exact wf_nil
  | succ n ih =>
    cases image with
    | nil => exact wf_nil
    | cons w rest => exact writeWord_wf _ (ih (base + 4) rest) base w

/-- A ROM array lists only the addresses of its words, whatever the image (R27). -/
theorem romOfImage_within (n base : Nat) (image : List Word) :
    (romOfImage n base image).within base (base + 4 * n) := by
  induction n generalizing base image with
  | zero => simp [romOfImage]
  | succ n ih =>
    cases image with
    | nil => simp [romOfImage]
    | cons w rest =>
      refine writeWord_within (fun p hp => ?_) (Nat.le_refl base) (by omega) w
      have hrest := ih (base + 4) rest p hp
      omega

/-! ### The damage rectangle -/

/-- A mark stays within the framebuffer: its column is a remainder by the width, and its row is checked (R45). -/
theorem damageMark_inFrame {p : Config.Params} (hp : p.wf) (a : Word) {r : Rect} (hr : r.inFrame p) :
    (damageMark p a r).inFrame p := by
  obtain ⟨-, -, -, -, hwidth, -⟩ := hp
  obtain ⟨hx1, hy1, hx2, hy2⟩ := hr
  unfold damageMark
  split
  · next hrow =>
    have hcol : frameOffset p a % p.fbWidth < p.fbWidth := Nat.mod_lt _ hwidth
    exact ⟨(Nat.min_le_left ..).trans hx1, (Nat.min_le_left ..).trans hy1, Nat.max_lt.2 ⟨hx2, hcol⟩,
      Nat.max_lt.2 ⟨hy2, hrow⟩⟩
  · exact ⟨hx1, hy1, hx2, hy2⟩

/-! ### What a load consumes -/

/-- A bus read can only shorten the key queue and lower the progress counter. -/
def Consumes (s t : State) : Prop := t.keys.length ≤ s.keys.length ∧ t.progress ≤ s.progress

theorem consumes_refl (s : State) : Consumes s s := ⟨Nat.le_refl _, Int.le_refl _⟩

theorem decProgress_consumes (s : State) : Consumes s s.decProgress :=
  ⟨Nat.le_refl _, by rw [decProgress_progress]; omega⟩

theorem deviceRead_consumes (s : State) (port : DevicePort) : Consumes s (s.deviceRead port).1 := by
  rcases deviceRead_cases s port with ⟨-, h⟩ | ⟨-, h⟩ <;> rw [h] <;> exact consumes_refl s

theorem readMouse_consumes (s : State) : Consumes s s.readMouse.1 := by
  unfold State.readMouse
  split
  · exact decProgress_consumes s
  · exact consumes_refl s

theorem readKeyboard_consumes (s : State) : Consumes s s.readKeyboard.1 := by
  unfold State.readKeyboard
  split
  · exact consumes_refl s
  · next hkeys => exact ⟨by simp [hkeys], Int.le_refl _⟩

theorem mmioReadReg_consumes (s : State) (r : MmioReg) : Consumes s (s.mmioReadReg r).1 := by
  cases r with
  | timer => exact decProgress_consumes s
  | mouse => exact readMouse_consumes s
  | keyboard => exact readKeyboard_consumes s
  | switchesLeds | spiControl => exact consumes_refl s
  | serialData | serialStatus | spiData | clipboardControl | clipboardData => exact deviceRead_consumes s _

theorem mmioRead_consumes (s : State) (a : Word) : Consumes s (s.mmioRead a).1 := by
  unfold State.mmioRead
  split
  · exact mmioReadReg_consumes s _
  · exact consumes_refl s

theorem loadWord_consumes (s : State) (a : Word) : Consumes s (s.loadWord a).1 := by
  unfold State.loadWord
  split
  case h_3 => exact mmioRead_consumes s a
  all_goals exact consumes_refl s

/-! ### Each update keeps the invariant -/

section
variable {s : State} (hs : s.Inv)
include hs

theorem writeReg_keeps_inv (a : Reg) (v : Word) : (s.writeReg a v).Inv := hs
theorem setCV_keeps_inv (c v : Bool) : (s.setCV c v).Inv := hs
theorem setH_keeps_inv (v : Word) : (s.setH v).Inv := hs
theorem setPc_keeps_inv (t : Word) : (s.setPc t).Inv := hs
theorem emit_keeps_inv (e : LogEvent) : (s.emit e).Inv := hs
theorem writeLink_keeps_inv : s.writeLink.Inv := writeReg_keeps_inv hs linkReg s.linkValue

theorem takeInvalidFetch_keeps_inv : s.takeInvalidFetch.Inv :=
  setPc_keeps_inv (emit_keeps_inv hs (.invalidFetch s.pc)) (romBaseIndex s.params)

/-- A bus read touches only the queue and the counter of what the invariant bounds, and takes from both. -/
theorem loadWord_keeps_inv (a : Word) : (s.loadWord a).1.Inv := by
  obtain ⟨hp, hram, hrom, hkeys, hdamage, hprogress⟩ := hs
  obtain ⟨hk, hpr⟩ := loadWord_consumes s a
  rw [loadWord_effect s a]
  exact ⟨hp, hram, hrom, hk.trans hkeys, hdamage, hpr.trans hprogress⟩

/-- An MMIO write touches nothing the invariant speaks of. -/
theorem mmioWrite_keeps_inv (a v : Word) : (s.mmioWrite a v).Inv := by
  rw [mmioWrite_effect s a v]
  exact hs

/-- A store in RAM lists only RAM addresses, since `MEM_SIZE` is a multiple of 4, and marks damage in the frame. -/
theorem storeRamWord_keeps_inv {a : Word} (ha : a.toNat < s.params.memSize) (v : Word) :
    (s.storeRamWord a v).Inv := by
  obtain ⟨hp, ⟨hwf, hwithin⟩, hrom, hkeys, hdamage, hprogress⟩ := hs
  have ⟨⟨haligned, _⟩, _⟩ := hp
  have hram : (s.storeRamWord a v).ram.within 0 s.params.memSize :=
    writeWord_within hwithin (Nat.zero_le _) (wordBase_add_four_le ha haligned) v
  have hframe : (s.storeRamWord a v).damage.inFrame s.params := by
    rw [storeRamWord_damage]
    split
    · exact damageMark_inFrame hp a hdamage
    · exact hdamage
  exact ⟨hp, ⟨storeRamWord_wf s hwf a v, hram⟩, hrom, hkeys, hframe, hprogress⟩

end

/-! ### The invariant -/

theorem effect_keeps_inv {s t : State} (hs : s.Inv) (h : Effect s t) : t.Inv := by
  cases h with
  | write a v => exact writeReg_keeps_inv hs a v
  | arith c w a v => exact writeReg_keeps_inv (setCV_keeps_inv hs c w) a v
  | aux x a v => exact writeReg_keeps_inv (setH_keeps_inv hs x) a v
  | diagnose d => exact emit_keeps_inv hs _
  | load ea a v => exact writeReg_keeps_inv (loadWord_keeps_inv hs ea) a v
  | storeRam ea v hea => exact storeRamWord_keeps_inv hs hea v
  | storeMmio ea v => exact mmioWrite_keeps_inv hs ea v
  | jump t => exact setPc_keeps_inv hs t
  | call t => exact setPc_keeps_inv (writeLink_keeps_inv hs) t
  | nothing => exact hs

theorem construct_inv {p : Config.Params} (hp : p.wf) (image : List Word) (d : Devices) :
    (State.construct p image d).Inv := by
  have ⟨_, _, _, _, hwidth, hheight, _⟩ := hp
  have hframe : Rect.inFrame ⟨0, 0, p.fbWidth - 1, p.fbHeight - 1⟩ p :=
    ⟨Nat.zero_le _, Nat.zero_le _, Nat.sub_one_lt_of_lt hwidth, Nat.sub_one_lt_of_lt hheight⟩
  exact ⟨hp, ⟨wf_nil, by simp [State.construct, State.reset]⟩,
    ⟨romOfImage_wf .., romOfImage_within p.romWords p.romStart image⟩, Nat.zero_le _, hframe, Int.le_refl _⟩

/-- Settles O9: the step is an invalid fetch, or one update of an instruction after the pc's increment, and each
keeps the invariant. -/
theorem stepKeepsInvariant : Obligations.StepKeepsInvariant := by
  intro s t hs h
  rcases step_next_cases h with ⟨-, rfl⟩ | ⟨ir, -, hexec⟩
  · exact takeInvalidFetch_keeps_inv hs
  · exact effect_keeps_inv (setPc_keeps_inv hs _) (exec_updates hexec)

/-- Settles O10: the state after reset is a fixed one, and a construction lists only its ROM words. -/
theorem resetHasInvariant : Obligations.ResetHasInvariant :=
  ⟨by decide, fun _ image d hp => construct_inv hp image d⟩

/-! ### Operands in numbers -/

/-- An immediate is its high half, zeros or ones, above its 16 bits (R58, R10). -/
theorem immediateValue_toNat (fill : Bool) (value : BitVec 16) :
    (immediateValue fill value).toNat = (if fill then 0xFFFF0000 else 0) + value.toNat := by
  unfold immediateValue
  rw [BitVec.toNat_append, ← Nat.shiftLeft_add_eq_or_of_lt value.isLt]
  cases fill <;> rfl

/-- The sum of a word and a sign-extended field, modulo 2^32 (R94, R103). -/
theorem add_signExtend_toNat {n : Nat} (x : Word) (off : BitVec n) :
    ((x + off.signExtend 32).toNat : Int) = (x.toNat + off.toInt) % 2 ^ 32 := by
  have hext : ((off.signExtend 32).toNat : Int) = off.toInt % 2 ^ 32 := by
    rw [BitVec.signExtend, BitVec.toNat_ofInt]
    omega
  rw [BitVec.toNat_add]
  omega

/-- Settles O24, from the two rules above. -/
theorem operandAssembly : Obligations.OperandAssembly := fun s b _ value off =>
  ⟨rfl, (immediateValue_toNat false value).trans (Nat.zero_add _), immediateValue_toNat true value,
    add_signExtend_toNat (s.reg b) off⟩

end Sys2Proof.Machine
end

section
/-! The register write path (R15) as the statements' frames say it, and the pc of a step (R136). -/

namespace Sys2Proof.Machine

/-! ### The write path in the statements' terms -/

theorem sameMemory_refl (s : State) : SameMemory s s := fun _ => ⟨rfl, rfl⟩

/-- The write path's `Z` and `N` describe the value now in the register (R15). -/
theorem writeReg_signZero (s : State) (a : Reg) (v : Word) :
    SignZeroOf (s.writeReg a v) ((s.writeReg a v).reg a) := by
  rw [reg_writeReg_same]
  exact ⟨zeroFlag_iff v, negativeFlag_iff v⟩

/-- A write through the write path leaves alone all that a register-format instruction must (R15, R68). -/
theorem writeReg_registerWrite (s : State) (a : Reg) (v : Word) : RegisterWrite s (s.writeReg a v) a :=
  ⟨fun _ hr => reg_writeReg_other s v hr, writeReg_signZero s a v, rfl, sameMemory_refl s,
    rfl, rfl, rfl, rfl, rfl, rfl, rfl, rfl, rfl, rfl, rfl, rfl, rfl, rfl, rfl⟩

/-- `H` is no part of the frame, so a write to it beforehand does not count (R19). -/
theorem registerWrite_setH {s t : State} {x : Word} {a : Reg} (h : RegisterWrite (s.setH x) t a) :
    RegisterWrite s t a := h

/-- A product is written through the write path, after `H` (R82). -/
theorem writeProduct_registerWrite (s : State) (a : Reg) (p : BitVec 64) :
    RegisterWrite s (s.writeProduct a p) a :=
  registerWrite_setH (writeReg_registerWrite (s.setH _) a _)

/-- Settles O60, from the rules of the write path. -/
theorem writePathSetsSignZero : Obligations.WritePathSetsSignZero := fun s i v =>
  ⟨reg_writeReg_same s i v, writeReg_registerWrite s i v, ⟨rfl, rfl⟩, rfl⟩

/-! ### The step of a fetched word -/

/-- A fetched word is executed after the pc's increment, since every word decodes (R136, R64). -/
theorem step_of_fetch {s : State} {ir : Word} (h : s.fetch = some ir) :
    step s = exec (decodeWord ir) (s.setPc (s.pc + 1#32)) := by
  unfold step
  rw [h]
  simp only [decode_bytesOfWord]

/-- Settles O6: the decoded instruction is the one the word stands for. -/
theorem stepRunsDecodedInstruction : Obligations.StepRunsDecodedInstruction := by
  intro s ir i rest hfetch _ hdecode
  rw [decode_bytesOfWord] at hdecode
  cases hdecode
  exact step_of_fetch hfetch

end Sys2Proof.Machine
end

section
/-! What each instruction may update, with the register it writes, and the whole-machine rules that follow (R16, R19,
R21, R22, R26, R27, R30, R130). -/

namespace Sys2Proof.Machine

/-! ### What bus operations leave unchanged -/

/-- A bus read keeps whatever the four fields it may change do not reach. -/
theorem readEffect_keeps {α : Type} {s t : State} (h : ReadEffect s t) (f : State → α)
    (hf : ∀ keys progress calls tick,
      f { s with keys := keys, progress := progress, deviceCalls := calls, deviceTick := tick } = f s) : f t = f s := by
  rw [h]
  exact hf ..

/-- An MMIO write keeps whatever the three fields it may change do not reach. -/
theorem writeEffect_keeps {α : Type} {s t : State} (h : WriteEffect s t) (f : State → α)
    (hf : ∀ leds slot calls, f { s with leds := leds, spiSelected := slot, deviceCalls := calls } = f s) :
    f t = f s := by
  rw [h]
  exact hf ..

section
variable (s : State) (a v : Word)

@[simp] theorem loadWord_reg (r : Reg) : (s.loadWord a).1.reg r = s.reg r :=
  readEffect_keeps (loadWord_effect s a) (State.reg · r) fun _ _ _ _ => rfl
@[simp] theorem loadWord_pc : (s.loadWord a).1.pc = s.pc :=
  readEffect_keeps (loadWord_effect s a) State.pc fun _ _ _ _ => rfl
@[simp] theorem loadWord_h : (s.loadWord a).1.h = s.h :=
  readEffect_keeps (loadWord_effect s a) State.h fun _ _ _ _ => rfl
@[simp] theorem loadWord_flagC : (s.loadWord a).1.flagC = s.flagC :=
  readEffect_keeps (loadWord_effect s a) State.flagC fun _ _ _ _ => rfl
@[simp] theorem loadWord_flagV : (s.loadWord a).1.flagV = s.flagV :=
  readEffect_keeps (loadWord_effect s a) State.flagV fun _ _ _ _ => rfl
@[simp] theorem loadWord_ram : (s.loadWord a).1.ram = s.ram :=
  readEffect_keeps (loadWord_effect s a) State.ram fun _ _ _ _ => rfl

@[simp] theorem mmioWrite_reg (r : Reg) : (s.mmioWrite a v).reg r = s.reg r :=
  writeEffect_keeps (mmioWrite_effect s a v) (State.reg · r) fun _ _ _ => rfl
@[simp] theorem mmioWrite_pc : (s.mmioWrite a v).pc = s.pc :=
  writeEffect_keeps (mmioWrite_effect s a v) State.pc fun _ _ _ => rfl
@[simp] theorem mmioWrite_h : (s.mmioWrite a v).h = s.h :=
  writeEffect_keeps (mmioWrite_effect s a v) State.h fun _ _ _ => rfl
@[simp] theorem mmioWrite_flagN : (s.mmioWrite a v).flagN = s.flagN :=
  writeEffect_keeps (mmioWrite_effect s a v) State.flagN fun _ _ _ => rfl
@[simp] theorem mmioWrite_flagZ : (s.mmioWrite a v).flagZ = s.flagZ :=
  writeEffect_keeps (mmioWrite_effect s a v) State.flagZ fun _ _ _ => rfl
@[simp] theorem mmioWrite_flagC : (s.mmioWrite a v).flagC = s.flagC :=
  writeEffect_keeps (mmioWrite_effect s a v) State.flagC fun _ _ _ => rfl
@[simp] theorem mmioWrite_flagV : (s.mmioWrite a v).flagV = s.flagV :=
  writeEffect_keeps (mmioWrite_effect s a v) State.flagV fun _ _ _ => rfl
@[simp] theorem mmioWrite_ram : (s.mmioWrite a v).ram = s.ram :=
  writeEffect_keeps (mmioWrite_effect s a v) State.ram fun _ _ _ => rfl
@[simp] theorem mmioWrite_progress : (s.mmioWrite a v).progress = s.progress :=
  writeEffect_keeps (mmioWrite_effect s a v) State.progress fun _ _ _ => rfl

end

/-! ### ROM, the parameters, the host's registers and the handles -/

/-- What no step changes (R27, R30, R31). -/
def SameRomAndHostInputs (s t : State) : Prop :=
  t.rom = s.rom ∧ t.params = s.params ∧ t.timer = s.timer ∧ t.switches = s.switches ∧ t.mouse = s.mouse ∧
    t.serialAttached = s.serialAttached ∧ t.spiAttached = s.spiAttached ∧ t.clipboardAttached = s.clipboardAttached

theorem sameRomAndHostInputs_refl (s : State) : SameRomAndHostInputs s s := ⟨rfl, rfl, rfl, rfl, rfl, rfl, rfl, rfl⟩

theorem loadWord_sameRomAndHostInputs (s : State) (a : Word) : SameRomAndHostInputs s (s.loadWord a).1 := by
  rw [loadWord_effect s a]
  exact sameRomAndHostInputs_refl s

theorem mmioWrite_sameRomAndHostInputs (s : State) (a v : Word) : SameRomAndHostInputs s (s.mmioWrite a v) := by
  rw [mmioWrite_effect s a v]
  exact sameRomAndHostInputs_refl s

/-- Only a bus operation could reach these fields, and none does. -/
theorem effect_sameRomAndHostInputs {s t : State} (h : Effect s t) : SameRomAndHostInputs s t := by
  cases h with
  | load ea => exact loadWord_sameRomAndHostInputs s ea
  | storeMmio ea v => exact mmioWrite_sameRomAndHostInputs s ea v
  | write | arith | aux | diagnose | storeRam | jump | call | nothing => exact sameRomAndHostInputs_refl s

/-- Settles O16: neither an invalid fetch nor the update of an instruction reaches these fields. -/
theorem stepKeepsRomAndHostInputs : Obligations.StepKeepsRomAndHostInputs := by
  intro s t h
  rcases step_next_cases h with ⟨-, rfl⟩ | ⟨ir, -, hexec⟩
  · exact sameRomAndHostInputs_refl s
  · have hkept : SameRomAndHostInputs (s.setPc (s.pc + 1#32)) t := effect_sameRomAndHostInputs (exec_updates hexec)
    exact hkept

/-! ### The update of each instruction -/

/-- `Effect` with what it forgets: which instructions make the update, and the register it writes, if any. -/
inductive InstrEffect (s : State) (i : Instr) : Option Reg → State → Prop
  /-- A register write (R15). -/
  | write (a : Reg) (v : Word) : InstrEffect s i (some a) (s.writeReg a v)
  /-- `C` and `V`, then a register write (R80, R81). -/
  | arith {a b : Reg} {c : Operand} (hi : i = .add a b c ∨ i = .sub a b c) (p q : Bool) (v : Word) :
      InstrEffect s i (some a) ((s.setCV p q).writeReg a v)
  /-- `H`, then a register write (R82, R83). -/
  | aux {a b : Reg} {c : Operand} (hi : i = .mul a b c ∨ i = .mulu a b c ∨ i = .div a b c) (x v : Word) :
      InstrEffect s i (some a) ((s.setH x).writeReg a v)
  /-- The diagnostic of a DIV (R110). -/
  | diagnose (e : LogEvent) : InstrEffect s i none (s.emit e)
  /-- A bus read, then a register write (R96, R97). -/
  | load {a b : Reg} {off : BitVec 20} (hi : i = .ldw a b off ∨ i = .ldb a b off) (v : Word) :
      InstrEffect s i (some a) ((s.loadWord (s.effectiveAddress b off)).1.writeReg a v)
  /-- A word written to RAM (R98, R99). -/
  | storeRam {a b : Reg} {off : BitVec 20} (hi : i = .stw a b off ∨ i = .stb a b off)
      (hea : (s.effectiveAddress b off).toNat < s.params.memSize) (v : Word) :
      InstrEffect s i none (s.storeRamWord (s.effectiveAddress b off) v)
  /-- An MMIO write (R98, R99). -/
  | storeMmio (ea v : Word) : InstrEffect s i none (s.mmioWrite ea v)
  /-- A branch (R103, R105). -/
  | jump (hi : (∃ inv cc c, i = .bReg inv cc c) ∨ ∃ inv cc off, i = .bOff inv cc off) (t : Word) :
      InstrEffect s i none (s.setPc t)
  /-- A linking branch (R104, R106). -/
  | call (hi : (∃ inv cc c, i = .blReg inv cc c) ∨ ∃ inv cc off, i = .blOff inv cc off) (t : Word) :
      InstrEffect s i (some linkReg) (s.writeLink.setPc t)
  /-- A branch not taken, or a store that reaches neither RAM nor MMIO (R37, R100). -/
  | nothing : InstrEffect s i none s

theorem stw_effect (s : State) (a b : Reg) (off : BitVec 20) (v : Word) :
    InstrEffect s (.stw a b off) none (s.storeWord (s.effectiveAddress b off) v) := by
  rcases storeWord_cases s (s.effectiveAddress b off) v with ⟨h, e⟩ | ⟨-, e⟩ | ⟨-, e⟩ <;> rw [e]
  · exact .storeRam (.inl rfl) (regionOf_ram.1 h) v
  · exact .storeMmio ..
  · exact .nothing

theorem stb_effect (s : State) (a b : Reg) (off : BitVec 20) (v : Byte) :
    InstrEffect s (.stb a b off) none (s.storeByte (s.effectiveAddress b off) v) := by
  rcases storeByte_cases s (s.effectiveAddress b off) v with ⟨h, e⟩ | ⟨-, e⟩ | ⟨-, e⟩ <;> rw [e]
  · exact .storeRam (.inr rfl) (regionOf_ram.1 h) _
  · exact .storeMmio ..
  · exact .nothing

/-- DIV has a destination exactly when its divisor is positive (R83, R110). -/
theorem div_effect (s : State) (a b : Reg) (c : Operand) {t : State} (h : execDiv a b c s = .next t) :
    InstrEffect s (.div a b c) (s.destination (.div a b c)) t := by
  simp only [execDiv] at h
  simp only [State.destination]
  split at h <;> cases h
  · rw [if_pos ‹_›]; exact .diagnose ..
  · rw [if_neg ‹_›]; exact .aux (.inr (.inr rfl)) ..

/-- What an instruction answers is its update, and its destination is the register written. -/
theorem exec_instrEffect {i : Instr} {s t : State} (h : exec i s = .next t) :
    InstrEffect s i (s.destination i) t := by
  cases i <;> simp only [exec] at h
  case add => cases h; exact .arith (.inl rfl) ..
  case sub => cases h; exact .arith (.inr rfl) ..
  case mul => cases h; exact .aux (.inl rfl) ..
  case mulu => cases h; exact .aux (.inr (.inl rfl)) ..
  case div => exact div_effect _ _ _ _ h
  case ldw => cases h; exact .load (.inl rfl) _
  case ldb => cases h; exact .load (.inr rfl) _
  case stw => cases h; exact stw_effect ..
  case stb => cases h; exact stb_effect ..
  case bReg => cases h; split; exacts [.jump (.inl ⟨_, _, _, rfl⟩) _, .nothing]
  case bOff => cases h; split; exacts [.jump (.inr ⟨_, _, _, rfl⟩) _, .nothing]
  case blReg =>
    cases h
    simp only [State.destination]
    split
    exacts [.call (.inl ⟨_, _, _, rfl⟩) _, .nothing]
  case blOff =>
    cases h
    simp only [State.destination]
    split
    exacts [.call (.inr ⟨_, _, _, rfl⟩) _, .nothing]
  all_goals cases h; exact .write ..

/-! ### `C`, `V`, `H` and the pc -/

section
variable {i : Instr} {s t : State} {d : Option Reg} (h : InstrEffect s i d t)
include h

/-- `C` and `V` change in ADD and SUB alone (R22). -/
theorem instrEffect_cv : (∃ a b c, i = .add a b c ∨ i = .sub a b c) ∨ SameCV s t := by
  cases h with
  | arith hi => exact .inl ⟨_, _, _, hi⟩
  | load => exact .inr ⟨loadWord_flagC .., loadWord_flagV ..⟩
  | storeMmio => exact .inr ⟨mmioWrite_flagC .., mmioWrite_flagV ..⟩
  | write | aux | diagnose | storeRam | jump | call | nothing => exact .inr ⟨rfl, rfl⟩

/-- `H` changes in MUL, MULU and DIV alone (R19). -/
theorem instrEffect_h : (∃ a b c, i = .mul a b c ∨ i = .mulu a b c ∨ i = .div a b c) ∨ t.h = s.h := by
  cases h with
  | aux hi => exact .inl ⟨_, _, _, hi⟩
  | load => exact .inr (loadWord_h ..)
  | storeMmio => exact .inr (mmioWrite_h ..)
  | write | arith | diagnose | storeRam | jump | call | nothing => exact .inr rfl

/-- The advanced pc changes in the branches alone (R16). -/
theorem instrEffect_pc :
    ((∃ inv cc c, i = .bReg inv cc c) ∨ ∃ inv cc off, i = .bOff inv cc off) ∨
    ((∃ inv cc c, i = .blReg inv cc c) ∨ ∃ inv cc off, i = .blOff inv cc off) ∨ t.pc = s.pc := by
  cases h with
  | jump hi => exact .inl hi
  | call hi => exact .inr (.inl hi)
  | load => exact .inr (.inr (loadWord_pc ..))
  | storeMmio => exact .inr (.inr (mmioWrite_pc ..))
  | write | arith | aux | diagnose | storeRam | nothing => exact .inr (.inr rfl)

end

/-- Settles O17: the three rules above, with the named instructions ruled out. -/
theorem specialStateOnlyByNamedInstructions : Obligations.SpecialStateOnlyByNamedInstructions := by
  intro i s t hexec
  have h := exec_instrEffect hexec
  refine ⟨fun hadd hsub => ?_, fun hmul hmulu hdiv => ?_, fun hbReg hblReg hbOff hblOff => ?_⟩
  · rcases instrEffect_cv h with ⟨a, b, c, rfl | rfl⟩ | hsame
    exacts [absurd rfl (hadd a b c), absurd rfl (hsub a b c), hsame]
  · rcases instrEffect_h h with ⟨a, b, c, rfl | rfl | rfl⟩ | hsame
    exacts [absurd rfl (hmul a b c), absurd rfl (hmulu a b c), absurd rfl (hdiv a b c), hsame]
  · rcases instrEffect_pc h with
      (⟨n, k, c, rfl⟩ | ⟨n, k, o, rfl⟩) | (⟨n, k, c, rfl⟩ | ⟨n, k, o, rfl⟩) | hsame
    exacts [absurd rfl (hbReg n k c), absurd rfl (hbOff n k o), absurd rfl (hblReg n k c), absurd rfl (hblOff n k o),
      hsame]

/-! ### The registers, `Z` and `N` -/

/-- A write through the write path, in a state whose registers are those of `s`. -/
theorem writeReg_describes {s u : State} (hu : AllRegsSame s u) (a : Reg) (v : Word) :
    OtherRegsSame s (u.writeReg a v) a ∧ SignZeroOf (u.writeReg a v) ((u.writeReg a v).reg a) :=
  ⟨fun r hr => (reg_writeReg_other u v hr).trans (hu r), writeReg_signZero u a v⟩

theorem allRegsSame_refl (s : State) : AllRegsSame s s := fun _ => rfl

/-- With a destination, the update is a register write, whatever went before it (R15). -/
theorem instrEffect_some {i : Instr} {s t : State} {a : Reg} (h : InstrEffect s i (some a) t) :
    OtherRegsSame s t a ∧ SignZeroOf t (t.reg a) := by
  cases h with
  | load _ v => exact writeReg_describes (loadWord_reg s _) a v
  | write _ v => exact writeReg_describes (allRegsSame_refl s) a v
  | arith _ p q v => exact writeReg_describes (u := s.setCV p q) (allRegsSame_refl s) a v
  | aux _ x v => exact writeReg_describes (u := s.setH x) (allRegsSame_refl s) a v
  | call => exact writeReg_describes (allRegsSame_refl s) linkReg s.linkValue

/-- Without a destination, no update reaches the registers, `Z` or `N` (R21). -/
theorem instrEffect_none {i : Instr} {s t : State} (h : InstrEffect s i none t) :
    AllRegsSame s t ∧ t.flagZ = s.flagZ ∧ t.flagN = s.flagN := by
  cases h with
  | storeMmio ea v => exact ⟨mmioWrite_reg s ea v, mmioWrite_flagZ .., mmioWrite_flagN ..⟩
  | diagnose | storeRam | jump | nothing => exact ⟨allRegsSame_refl s, rfl, rfl⟩

/-- Settles O18: the destination is the register the instruction's update writes. -/
theorem signZeroFollowTheWrittenRegister : Obligations.SignZeroFollowTheWrittenRegister := by
  intro i s t hexec
  have h := exec_instrEffect hexec
  exact ⟨fun a ha => instrEffect_some (ha ▸ h), fun hnone => instrEffect_none (hnone ▸ h)⟩

/-! ### RAM -/

/-- The RAM array changes in a store that addresses RAM alone (R37). -/
theorem instrEffect_ram {i : Instr} {s t : State} {d : Option Reg} (h : InstrEffect s i d t) :
    (∃ a b off v, (i = .stw a b off ∨ i = .stb a b off) ∧
      (s.effectiveAddress b off).toNat < s.params.memSize ∧ t = s.storeRamWord (s.effectiveAddress b off) v) ∨
    t.ram = s.ram := by
  cases h with
  | storeRam hi hea v => exact .inl ⟨_, _, _, v, hi, hea, rfl⟩
  | load => exact .inr (loadWord_ram ..)
  | storeMmio => exact .inr (mmioWrite_ram ..)
  | write | arith | aux | diagnose | jump | call | nothing => exact .inr rfl

/-- A byte that a RAM store changes is in the aligned word of the store's address (R41). -/
theorem div_four_eq_of_storeRamWord_ne {s : State} {a v : Word} {k : Nat}
    (h : (s.storeRamWord a v).ram.read k ≠ s.ram.read k) : k / 4 = a.toNat / 4 := by
  have hin : ¬ (k < wordBase a ∨ wordBase a + 4 ≤ k) := fun hout => h (storeRamWord_read_other s a v k hout)
  unfold wordBase at hin
  omega

/-- Settles O23: only a store to RAM changes the array, and only in its word. -/
theorem ramChangedOnlyByStores : Obligations.RamChangedOnlyByStores := by
  intro i s t k hexec hne
  rcases instrEffect_ram (exec_instrEffect hexec) with ⟨a, b, off, v, hi, hea, rfl⟩ | hram
  · exact ⟨a, b, off, hi, hea, div_four_eq_of_storeRamWord_ne hne⟩
  · exact absurd (by rw [hram]) hne

/-! ### The progress counter -/

/-- The timer stands at offset 0 and nowhere else (R120). -/
theorem mmioRegAt_timer {off : Nat} : mmioRegAt off = some .timer ↔ off = 0 := by
  unfold mmioRegAt
  split_ifs <;> simp_all

/-- The mouse register stands at offset 24 and nowhere else (R120). -/
theorem mmioRegAt_mouse {off : Nat} : mmioRegAt off = some .mouse ↔ off = 24 := by
  unfold mmioRegAt
  split_ifs <;> simp_all

theorem deviceRead_progress (s : State) (port : Config.DevicePort) : (s.deviceRead port).1.progress = s.progress := by
  rcases deviceRead_cases s port with ⟨-, h⟩ | ⟨-, h⟩ <;> rw [h]

theorem readMouse_progress (s : State) :
    s.readMouse.1.progress = if s.keys = [] then s.progress - 1 else s.progress := by
  simp only [State.readMouse, List.isEmpty_iff]
  split <;> rfl

theorem readKeyboard_progress (s : State) : s.readKeyboard.1.progress = s.progress := by
  unfold State.readKeyboard
  split <;> rfl

/-- A load of this address is a poll: of the timer, or of the mouse register with no key queued (R130). -/
def State.Polls (s : State) (a : Word) : Prop :=
  a.toNat = s.params.ioStart ∨ (a.toNat = s.params.ioStart + 24 ∧ s.keys = [])

/-- A read of any register but the timer and the mouse leaves the counter. -/
theorem mmioReadReg_progress (s : State) {r : MmioReg} (htimer : r ≠ .timer) (hmouse : r = .mouse → s.keys ≠ []) :
    (s.mmioReadReg r).1.progress = s.progress := by
  cases r with
  | timer => exact absurd rfl htimer
  | mouse => exact (readMouse_progress s).trans (if_neg (hmouse rfl))
  | keyboard => exact readKeyboard_progress s
  | switchesLeds | spiControl => rfl
  | serialData | serialStatus | spiData | clipboardControl | clipboardData => exact deviceRead_progress s _

/-- A poll lowers the counter by one (R123, R127). -/
theorem mmioRead_progress_of_polls {s : State} {a : Word} (h : s.Polls a) :
    (s.mmioRead a).1.progress = s.progress - 1 := by
  rcases h with htimer | ⟨hmouse, hkeys⟩
  · have hsel : mmioSelect s.params a = some .timer := mmioRegAt_timer.2 (by omega)
    simp only [State.mmioRead, hsel, State.mmioReadReg, State.readTimer, decProgress_progress]
  · have hsel : mmioSelect s.params a = some .mouse := mmioRegAt_mouse.2 (by omega)
    simp only [State.mmioRead, hsel, State.mmioReadReg, readMouse_progress, if_pos hkeys]

/-- Any other MMIO read leaves the counter. -/
theorem mmioRead_progress_of_not_polls {s : State} {a : Word} (hio : s.params.ioStart ≤ a.toNat) (h : ¬ s.Polls a) :
    (s.mmioRead a).1.progress = s.progress := by
  unfold State.Polls at h
  unfold State.mmioRead
  split
  · next r hsel =>
    refine mmioReadReg_progress s ?_ ?_
    · rintro rfl
      have := mmioRegAt_timer.1 hsel
      omega
    · rintro rfl hkeys
      have := mmioRegAt_mouse.1 hsel
      exact h (.inr ⟨by omega, hkeys⟩)
  · rfl

/-- The polled registers are in the MMIO window, which R6 puts above RAM. -/
theorem loadWord_progress_of_polls {s : State} {a : Word} (hp : s.params.wf) (h : s.Polls a) :
    (s.loadWord a).1.progress = s.progress - 1 := by
  obtain ⟨-, -, ⟨-, hmem⟩, -⟩ := hp
  have hio : s.params.ioStart ≤ a.toNat := by rcases h with h | ⟨h, -⟩ <;> omega
  simp only [State.loadWord, regionOf_mmio.2 ⟨hmem.trans hio, hio⟩, mmioRead_progress_of_polls h]

/-- Any other load leaves the counter, in every region. -/
theorem loadWord_progress_of_not_polls {s : State} {a : Word} (h : ¬ s.Polls a) :
    (s.loadWord a).1.progress = s.progress := by
  unfold State.loadWord
  split
  case h_3 hregion => exact mmioRead_progress_of_not_polls (regionOf_mmio.1 hregion).2 h
  all_goals rfl

/-- A load answers what its bus read left, with its register written. -/
theorem exec_load {i : Instr} {s t : State} {a b : Reg} {off : BitVec 20} (hi : i = .ldw a b off ∨ i = .ldb a b off)
    (h : exec i s = .next t) : ∃ v, t = (s.loadWord (s.effectiveAddress b off)).1.writeReg a v := by
  rcases hi with rfl | rfl <;> cases h <;> exact ⟨_, rfl⟩

/-- The counter changes in the bus read of a load alone (R130). -/
theorem instrEffect_progress {i : Instr} {s t : State} {d : Option Reg} (h : InstrEffect s i d t) :
    (∃ a b off, (i = .ldw a b off ∨ i = .ldb a b off) ∧
      t.progress = (s.loadWord (s.effectiveAddress b off)).1.progress) ∨
    t.progress = s.progress := by
  cases h with
  | load hi => exact .inl ⟨_, _, _, hi, rfl⟩
  | storeMmio => exact .inr (mmioWrite_progress ..)
  | write | arith | aux | diagnose | storeRam | jump | call | nothing => exact .inr rfl

/-- Settles O19: only a load's bus read can reach the counter, and it does exactly when it polls. -/
theorem progressOnlyByPollingLoads : Obligations.ProgressOnlyByPollingLoads := by
  intro i s t hp hexec
  constructor
  · rintro ⟨a, b, off, hi, hpolls⟩
    obtain ⟨v, rfl⟩ := exec_load hi hexec
    exact loadWord_progress_of_polls hp hpolls
  · intro hnone
    rcases instrEffect_progress (exec_instrEffect hexec) with ⟨a, b, off, hi, hload⟩ | hsame
    · obtain ⟨htimer, hmouse⟩ := hnone a b off hi
      have hpolls : ¬ s.Polls (s.effectiveAddress b off) := by
        rintro (h | ⟨h, hkeys⟩)
        · exact htimer h
        · exact hmouse.elim (· h) (· hkeys)
      exact hload.trans (loadWord_progress_of_not_polls hpolls)
    · exact hsame

end Sys2Proof.Machine
end

section
/-! The results of MOVF, MUL, MULU and DIV in numbers (R24, R71, R82, R83). -/

namespace Sys2Proof.Machine

/-! ### The packed flags word (R24) -/

section
variable (n z c v : Bool) (tag : BitVec 28)

theorem packFlags_bit31 : (packFlags n z c v tag).getLsbD 31 = n :=
  bit_above (v := 4) (w := 28) (by decide) <|
    bit_above (v := 3) (w := 1) (by decide) <|
    bit_above (v := 2) (w := 1) (by decide) <|
    bit_above (v := 1) (w := 1) (by decide) <|
    by simp

theorem packFlags_bit30 : (packFlags n z c v tag).getLsbD 30 = z :=
  bit_above (v := 4) (w := 28) (by decide) <|
    bit_above (v := 3) (w := 1) (by decide) <|
    bit_above (v := 2) (w := 1) (by decide) <|
    bit_low (v := 1)

theorem packFlags_bit29 : (packFlags n z c v tag).getLsbD 29 = c :=
  bit_above (v := 4) (w := 28) (by decide) <|
    bit_above (v := 3) (w := 1) (by decide) <|
    bit_low (v := 2)

theorem packFlags_bit28 : (packFlags n z c v tag).getLsbD 28 = v :=
  bit_above (v := 4) (w := 28) (by decide) <|
    bit_low (v := 3)

theorem packFlags_tag : (packFlags n z c v tag).toNat % 2 ^ 28 = tag.toNat := by
  rw [packFlags, BitVec.toNat_append, ← Nat.shiftLeft_add_eq_or_of_lt tag.isLt, Nat.shiftLeft_eq,
    Nat.mul_add_mod_self_right, Nat.mod_eq_of_lt tag.isLt]

/-- A tag that is not zero makes the packed word not zero. -/
theorem zeroFlag_packFlags (h : tag ≠ 0#28) : zeroFlag (packFlags n z c v tag) = false := by
  rw [Bool.eq_false_iff, ne_eq, zeroFlag_iff]
  intro hzero
  have htag := packFlags_tag n z c v tag
  rw [hzero] at htag
  exact h (BitVec.eq_of_toNat_eq htag.symm)

end

/-- Settles O26: the register holds the packed word, whose bit 31, the new `N`, is the old one. -/
theorem movfWritesFlagsWord : Obligations.MovfWritesFlagsWord := by
  intro a s
  refine ⟨s.writeReg a s.flagsWord, rfl, ?_⟩
  rw [reg_writeReg_same]
  exact ⟨packFlags_bit31 .., packFlags_bit30 .., packFlags_bit29 .., packFlags_bit28 .., packFlags_tag ..,
    packFlags_bit31 .., zeroFlag_packFlags _ _ _ _ _, writeReg_registerWrite s a _, ⟨rfl, rfl⟩, rfl⟩

/-! ### The two halves of a product (R82) -/

/-- A 64-bit value is its high word above its low word. -/
theorem halves_append (p : BitVec 64) : p.extractLsb' 32 32 ++ p.extractLsb' 0 32 = p := by
  rw [BitVec.extractLsb'_append_extractLsb'_eq_extractLsb' (by decide)]
  exact BitVec.extractLsb'_eq_self

theorem halves_toInt (p : BitVec 64) :
    (p.extractLsb' 32 32).toInt * 2 ^ 32 + (p.extractLsb' 0 32).toNat = p.toInt := by
  conv_rhs => rw [← halves_append p, BitVec.toInt_append]
  rw [if_neg (by decide), Int.mul_comm]

theorem halves_toNat (p : BitVec 64) :
    (p.extractLsb' 32 32).toNat * 2 ^ 32 + (p.extractLsb' 0 32).toNat = p.toNat := by
  conv_rhs => rw [← halves_append p, BitVec.toNat_append, ← Nat.shiftLeft_add_eq_or_of_lt (BitVec.isLt _)]
  rw [Nat.shiftLeft_eq]

/-- A signed product of two words fits in 64 bits. -/
theorem toInt_signedProduct (x y : Word) : (BitVec.ofInt 64 (x.toInt * y.toInt)).toInt = x.toInt * y.toInt := by
  have hlow := BitVec.le_toInt_mul_toInt (x := x) (y := y)
  have hhigh := BitVec.toInt_mul_toInt_le (x := x) (y := y)
  exact BitVec.toInt_ofInt_eq_self (by decide) (by omega) (by omega)

/-- An unsigned product of two words fits in 64 bits. -/
theorem toNat_unsignedProduct (x y : Word) : (BitVec.ofNat 64 (x.toNat * y.toNat)).toNat = x.toNat * y.toNat := by
  have hlt : x.toNat * y.toNat < 2 ^ 32 * 2 ^ 32 := Nat.mul_lt_mul'' x.isLt y.isLt
  rw [BitVec.toNat_ofNat, Nat.mod_eq_of_lt (by omega)]

/-- The destination of a product holds its low word. -/
theorem reg_writeProduct_same (s : State) (a : Reg) (p : BitVec 64) :
    (s.writeProduct a p).reg a = p.extractLsb' 0 32 := by
  rw [reg_writeProduct, if_pos rfl]

/-- Settles O32: the two halves are the 64-bit word of the product, which is exact. -/
theorem mulResults : Obligations.MulResults := by
  intro a b c s
  refine ⟨⟨_, rfl, ?_, writeProduct_registerWrite s a _, rfl, rfl⟩,
    ⟨_, rfl, ?_, writeProduct_registerWrite s a _, rfl, rfl⟩⟩
  · rw [reg_writeProduct_same, writeProduct_h, halves_toInt, toInt_signedProduct]
  · rw [reg_writeProduct_same, writeProduct_h, halves_toNat, toNat_unsignedProduct]

/-! ### Floor division (R83) -/

/-- For a positive divisor, the corrected truncated quotient and remainder are the floor ones. -/
theorem floorDivision_eq {n d : Int} (hd : 0 < d) : floorDivision n d = (n / d, n % d) := by
  have hlt := Int.emod_lt_of_pos n hd
  have hnonneg := Int.emod_nonneg n hd.ne'
  simp only [floorDivision, Int.tdiv_eq_ediv, Int.tmod_eq_emod, Int.sign_eq_one_of_pos hd]
  split
  · rw [if_neg (by omega)]; simp
  · rw [if_pos (by omega)]
    ext <;> simp only <;> omega

/-- A positive divisor takes no dividend out of the range of a signed word: the quotient is no further from 0. -/
theorem ediv_word_range {n d : Int} (hd : 0 < d) (hlow : -2 ^ 31 ≤ n) (hhigh : n < 2 ^ 31) :
    -2 ^ 31 ≤ n / d ∧ n / d < 2 ^ 31 := by
  constructor
  · rw [Int.le_ediv_iff_mul_le hd]
    nlinarith
  · rw [Int.ediv_lt_iff_lt_mul hd]
    nlinarith

/-- DIV with a positive divisor writes the floor remainder to `H` and the floor quotient to the destination. -/
theorem execDiv_of_pos {a b : Reg} {c : Operand} {s : State} (hd : 0 < (s.operand c).toInt) :
    execDiv a b c s = .next ((s.setH (BitVec.ofInt 32 ((s.reg b).toInt % (s.operand c).toInt))).writeReg a
      (BitVec.ofInt 32 ((s.reg b).toInt / (s.operand c).toInt))) := by
  rw [execDiv, if_neg (by omega), floorDivision_eq hd]

/-- Settles O33: quotient and remainder are the floor ones, and both fit in a signed word. -/
theorem divFloors : Obligations.DivFloors := by
  intro a b c s hd
  have hquot := ediv_word_range hd (s.reg b).le_toInt (s.reg b).toInt_lt
  have hnonneg := Int.emod_nonneg (s.reg b).toInt hd.ne'
  have hlt := Int.emod_lt_of_pos (s.reg b).toInt hd
  have hfits := hlt.trans (s.operand c).toInt_lt
  refine ⟨_, execDiv_of_pos hd, ?_⟩
  rw [reg_writeReg_same, writeReg_h, setH_h, BitVec.toInt_ofInt_eq_self (by decide) hquot.1 hquot.2,
    BitVec.toInt_ofInt_eq_self (by decide) (by omega) hfits]
  exact ⟨Int.mul_ediv_add_emod _ _, hnonneg, hlt,
    registerWrite_setH (writeReg_registerWrite (s.setH _) a _), rfl, rfl⟩

end Sys2Proof.Machine
end

section
/-! The state after construction (R32, R133). -/

namespace Sys2Proof.Machine

/-- ROM word `k` of an image is its word `k`: each word is stored below the rest and overlaps none of it (R27). -/
theorem readWord_romOfImage {n base k : Nat} {image : List Word} (hn : k < n) (hk : k < image.length) :
    (romOfImage n base image).readWord (base + 4 * k) = image[k] := by
  induction n generalizing base k image with
  | zero => omega
  | succ n ih =>
    cases image with
    | nil => simp at hk
    | cons w rest =>
      rw [romOfImage]
      cases k with
      | zero => exact readWord_writeWord_same _ (romOfImage_wf ..) base w
      | succ k =>
        rw [readWord_writeWord_other _ _ (by omega), show base + 4 * (k + 1) = base + 4 + 4 * k by omega]
        exact ih (by omega) (by simpa using hk)

theorem construct_reg (p : Config.Params) (image : List Word) (d : Devices) (r : Reg) :
    (State.construct p image d).reg r = 0#32 := Vector.getElem_replicate _

/-- Settles O12: ROM holds the image, and every other field has its construction value by definition. -/
theorem constructionState : Obligations.ConstructionState := by
  intro p image d hlen
  have hrom : ∀ k (h : k < image.length), (State.construct p image d).rom.readWord (p.romStart + 4 * k) = image[k] :=
    fun k h => readWord_romOfImage (hlen ▸ h) h
  exact ⟨State.construct p image d, rfl, rfl, construct_reg p image d, rfl, rfl, rfl, fun _ => rfl, hrom,
    rfl, rfl, rfl, rfl, rfl, rfl, rfl, rfl⟩

end Sys2Proof.Machine
end

section
/-! Fetch, the word placed where the next step fetches (R35, R136), and two rules about every step: its device calls
(R42, R131) and the damage rectangle (R45). -/

namespace Sys2Proof.Machine

open Config (DevicePort)

/-! ### Fetch (R35) -/

theorem inRamIndex_iff {p : Config.Params} {k : Nat} : inRamIndex p k = true ↔ k < p.memSize / 4 := decide_eq_true_iff

theorem inRomIndex_iff {p : Config.Params} {k : Nat} :
    inRomIndex p k = true ↔ p.romStart / 4 ≤ k ∧ k < p.romStart / 4 + p.romWords := decide_eq_true_iff

theorem fetch_ram {s : State} (h : s.pc.toNat < s.params.memSize / 4) :
    s.fetch = some (s.ram.readWord (4 * s.pc.toNat)) :=
  if_pos (inRamIndex_iff.2 h)

/-- Above RAM, fetch looks at ROM alone: MMIO has no part in it. -/
theorem fetch_above_ram {s : State} (h : s.params.memSize / 4 ≤ s.pc.toNat) :
    s.fetch = if inRomIndex s.params s.pc.toNat then some (s.rom.readWord (4 * s.pc.toNat)) else none :=
  if_neg (by rw [inRamIndex_iff]; omega)

theorem fetch_rom {s : State} (hram : s.params.memSize / 4 ≤ s.pc.toNat) (hlow : s.params.romStart / 4 ≤ s.pc.toNat)
    (hhigh : s.pc.toNat < s.params.romStart / 4 + s.params.romWords) :
    s.fetch = some (s.rom.readWord (4 * s.pc.toNat)) := by
  rw [fetch_above_ram hram, if_pos (inRomIndex_iff.2 ⟨hlow, hhigh⟩)]

theorem fetch_invalid {s : State} (hram : s.params.memSize / 4 ≤ s.pc.toNat)
    (hout : s.pc.toNat < s.params.romStart / 4 ∨ s.params.romStart / 4 + s.params.romWords ≤ s.pc.toNat) :
    s.fetch = none := by
  rw [fetch_above_ram hram, if_neg (by rw [inRomIndex_iff]; omega)]

/-- Settles O5: the three rules above. -/
theorem fetchReadsRamOrRom : Obligations.FetchReadsRamOrRom := fun _ => ⟨fetch_ram, fetch_rom, fetch_invalid⟩

/-! ### The placed word -/

theorem tableWord_32 (w : Nat) : tableWord 32 w = BitVec.ofNat 32 w :=
  BitVec.eq_of_toNat_eq (by simp [tableWord])

/-- The word is stored where the fetch reads: in RAM or ROM at the pc, or else in RAM word 0, which R6 provides. -/
theorem fetch_withFetchWord {s : State} (hp : s.params.wf) (hram : s.ram.wf) (hrom : s.rom.wf) (w : Nat) :
    (s.withFetchWord 32 w).fetch = some (BitVec.ofNat 32 w) := by
  rw [State.withFetchWord, tableWord_32]
  split
  · next hin =>
    rw [fetch_ram (by exact inRamIndex_iff.1 hin), readWord_writeWord_same s.ram hram]
  · next hout =>
    rw [inRamIndex_iff, Nat.not_lt] at hout
    split
    · next hin =>
      obtain ⟨hlow, hhigh⟩ := inRomIndex_iff.1 hin
      rw [fetch_rom (by exact hout) (by exact hlow) (by exact hhigh), readWord_writeWord_same s.rom hrom]
    · obtain ⟨⟨haligned, hpos, -⟩, -⟩ := hp
      have hzero : 0 < s.params.memSize / 4 := by omega
      rw [fetch_ram (by exact hzero)]
      exact congrArg some (readWord_writeWord_same s.ram hram 0 _)

/-- Settles O11: the placed word is fetched, and a fetched word is run after the pc's increment. -/
theorem placedInstructionRunsNext : Obligations.PlacedInstructionRunsNext := fun _ w hp hram hrom =>
  have hfetch := fetch_withFetchWord hp hram hrom w
  ⟨_, rfl, hfetch, step_of_fetch hfetch⟩

/-! ### Device calls of a step (R42, R131) -/

/-- The record of device calls is as before, or has one more entry, for a port whose device is attached. -/
def AtMostOneCall (s t : State) : Prop :=
  t.deviceCalls = s.deviceCalls ∨
  ∃ port v, s.attached port = true ∧
    (t.deviceCalls = .read port v :: s.deviceCalls ∨ t.deviceCalls = .write port v :: s.deviceCalls)

theorem deviceRead_calls (s : State) (port : DevicePort) : AtMostOneCall s (s.deviceRead port).1 := by
  rcases deviceRead_cases s port with ⟨hattached, h⟩ | ⟨-, h⟩ <;> rw [h]
  · exact .inr ⟨port, s.oracle port, hattached, .inl rfl⟩
  · exact .inl rfl

theorem deviceWrite_calls (s : State) (port : DevicePort) (v : Word) : AtMostOneCall s (s.deviceWrite port v) := by
  rcases deviceWrite_cases s port v with ⟨hattached, h⟩ | ⟨-, h⟩ <;> rw [h]
  · exact .inr ⟨port, v, hattached, .inr rfl⟩
  · exact .inl rfl

theorem readMouse_deviceCalls (s : State) : s.readMouse.1.deviceCalls = s.deviceCalls := by
  unfold State.readMouse
  split <;> rfl

theorem readKeyboard_deviceCalls (s : State) : s.readKeyboard.1.deviceCalls = s.deviceCalls := by
  unfold State.readKeyboard
  split <;> rfl

theorem mmioReadReg_calls (s : State) (r : MmioReg) : AtMostOneCall s (s.mmioReadReg r).1 := by
  cases r with
  | serialData | serialStatus | spiData | clipboardControl | clipboardData => exact deviceRead_calls s _
  | mouse => exact .inl (readMouse_deviceCalls s)
  | keyboard => exact .inl (readKeyboard_deviceCalls s)
  | timer | switchesLeds | spiControl => exact .inl rfl

theorem mmioWriteReg_calls (s : State) (v : Word) (r : MmioReg) : AtMostOneCall s (s.mmioWriteReg v r) := by
  cases r with
  | serialData | spiData | clipboardControl | clipboardData => exact deviceWrite_calls s _ v
  | timer | switchesLeds | serialStatus | spiControl | mouse | keyboard => exact .inl rfl

theorem mmioRead_calls (s : State) (a : Word) : AtMostOneCall s (s.mmioRead a).1 := by
  unfold State.mmioRead
  split
  · exact mmioReadReg_calls s _
  · exact .inl rfl

theorem mmioWrite_calls (s : State) (a v : Word) : AtMostOneCall s (s.mmioWrite a v) := by
  unfold State.mmioWrite
  split
  · exact mmioWriteReg_calls s v _
  · exact .inl rfl

theorem loadWord_calls (s : State) (a : Word) : AtMostOneCall s (s.loadWord a).1 := by
  unfold State.loadWord
  split
  case h_3 => exact mmioRead_calls s a
  all_goals exact .inl rfl

/-- An update makes no call but the one of its bus operation. -/
theorem effect_calls {s t : State} (h : Effect s t) : AtMostOneCall s t := by
  cases h with
  | load ea => exact loadWord_calls s ea
  | storeMmio ea v => exact mmioWrite_calls s ea v
  | write | arith | aux | diagnose | storeRam | jump | call | nothing => exact .inl rfl

/-- Settles O20: an invalid fetch makes no call, and the pc's increment touches neither the handles nor the record. -/
theorem atMostOneDeviceCall : Obligations.AtMostOneDeviceCall := by
  intro s t h
  rcases step_next_cases h with ⟨-, rfl⟩ | ⟨ir, -, hexec⟩
  · exact .inl rfl
  · have hcalls : AtMostOneCall (s.setPc (s.pc + 1#32)) t := effect_calls (exec_updates hexec)
    exact hcalls

/-! ### The damage rectangle of a step (R45) -/

@[simp] theorem loadWord_damage (s : State) (a : Word) : (s.loadWord a).1.damage = s.damage :=
  readEffect_keeps (loadWord_effect s a) State.damage fun _ _ _ _ => rfl

@[simp] theorem mmioWrite_damage (s : State) (a v : Word) : (s.mmioWrite a v).damage = s.damage :=
  writeEffect_keeps (mmioWrite_effect s a v) State.damage fun _ _ _ => rfl

/-- The second rectangle holds the first. -/
def Rect.Within (r q : Rect) : Prop := q.x1 ≤ r.x1 ∧ q.y1 ≤ r.y1 ∧ r.x2 ≤ q.x2 ∧ r.y2 ≤ q.y2

theorem rect_within_refl (r : Rect) : r.Within r := ⟨Nat.le_refl _, Nat.le_refl _, Nat.le_refl _, Nat.le_refl _⟩

theorem storeRamWord_damage_expands (s : State) (a v : Word) : s.damage.Within (s.storeRamWord a v).damage := by
  rw [storeRamWord_damage]
  split
  · exact damageMark_expands s.params a s.damage
  · exact rect_within_refl s.damage

/-- Only a RAM store reaches the rectangle. -/
theorem effect_damage_expands {s t : State} (h : Effect s t) : s.damage.Within t.damage := by
  cases h with
  | storeRam ea v => exact storeRamWord_damage_expands s ea v
  | load ea => rw [writeReg_damage, loadWord_damage]; exact rect_within_refl s.damage
  | storeMmio ea v => rw [mmioWrite_damage]; exact rect_within_refl s.damage
  | write | arith | aux | diagnose | jump | call | nothing => exact rect_within_refl s.damage

/-- Settles O21: the update of an instruction expands the rectangle, and nothing else of a step reaches it. -/
theorem damageNeverShrinks : Obligations.DamageNeverShrinks := by
  intro s t h
  rcases step_next_cases h with ⟨-, rfl⟩ | ⟨ir, -, hexec⟩
  · exact rect_within_refl s.damage
  · have hdamage : (s.setPc (s.pc + 1#32)).damage.Within t.damage := effect_damage_expands (exec_updates hexec)
    exact hdamage

end Sys2Proof.Machine
end

section
/-! The loads and stores in each region, byte lanes, and the damage mark (R34, R36 to R41, R44 to R46, R96 to R99). -/

namespace Sys2Proof.Machine

/-! ### The aligned word and its lanes (R40, R41) -/

theorem wordBase_eq (a : Word) : wordBase a = a.toNat - a.toNat % 4 := by
  unfold wordBase
  omega

theorem wordBase_add_lane (a : Word) : wordBase a + a.toNat % 4 = a.toNat := by
  unfold wordBase
  omega

/-- The lane of an address, in the aligned word of a memory, is the byte at the address. -/
theorem laneByte_readWord (m : Memory) (a : Word) : laneByte (m.readWord (wordBase a)) a = m.read a.toNat := by
  have hbyte := readWord_byte m (wordBase a) (a.toNat % 4) (Nat.mod_lt _ (by decide))
  rwa [wordBase_add_lane] at hbyte

@[simp] theorem laneByte_zero (a : Word) : laneByte 0#32 a = 0#8 := by
  simp [laneByte]

/-- The mask of a lane is its eight low bits. -/
theorem getLsbD_laneMask (i : Nat) : (0xFF#32).getLsbD i = decide (i < 8) := by
  rw [show (0xFF#32) = (BitVec.allOnes 8).setWidth 32 from rfl, BitVec.getLsbD_setWidth, BitVec.getLsbD_allOnes,
    ← Bool.decide_and, decide_eq_decide]
  omega

/-- Replacing a lane changes the bits of that lane alone. -/
theorem getLsbD_withLaneByte (w a : Word) (b : Byte) {k : Nat} (hk : k < 32) :
    (withLaneByte w a b).getLsbD k = if k / 8 = a.toNat % 4 then b.getLsbD (k % 8) else w.getLsbD k := by
  simp only [withLaneByte, laneShift, BitVec.getLsbD_or, BitVec.getLsbD_and, BitVec.getLsbD_not,
    BitVec.getLsbD_shiftLeft, BitVec.getLsbD_setWidth, getLsbD_laneMask]
  by_cases hbelow : k < 8 * (a.toNat % 4)
  · simp [hk, hbelow, show ¬ k / 8 = a.toNat % 4 by omega]
  · by_cases hlane : k / 8 = a.toNat % 4
    · simp [hk, hbelow, hlane, show k - 8 * (a.toNat % 4) = k % 8 by omega, show k % 8 < 8 by omega,
        show k % 8 < 32 by omega]
    · have habove : 8 ≤ k - 8 * (a.toNat % 4) := by omega
      simp [hk, hbelow, hlane, habove.not_gt, BitVec.getLsbD_of_ge b _ habove]

/-- Byte `j` of a word with a lane replaced is the new byte in that lane, and the old one in any other. -/
theorem byte_withLaneByte (w a : Word) (b : Byte) {j : Nat} (hj : j < 4) :
    (withLaneByte w a b).extractLsb' (8 * j) 8 = if j = a.toNat % 4 then b else w.extractLsb' (8 * j) 8 := by
  apply BitVec.eq_of_getLsbD_eq
  intro i hi
  rw [BitVec.getLsbD_extractLsb', getLsbD_withLaneByte w a b (by omega), show (8 * j + i) / 8 = j by omega,
    show (8 * j + i) % 8 = i by omega]
  split <;> simp [hi]

/-- Storing the aligned word with one lane replaced changes the byte of that lane alone (R39). -/
theorem read_writeWord_withLaneByte {m : Memory} (hm : m.wf) (a : Word) (b : Byte) (k : Nat) :
    (m.writeWord (wordBase a) (withLaneByte (m.readWord (wordBase a)) a b)).read k =
      if k = a.toNat then b else m.read k := by
  have hlane := wordBase_add_lane a
  by_cases hin : wordBase a ≤ k ∧ k < wordBase a + 4
  · obtain ⟨j, rfl⟩ := Nat.exists_eq_add_of_le hin.1
    have hj : j < 4 := by omega
    rw [read_writeWord_byte m hm _ _ j hj, byte_withLaneByte _ a b hj, readWord_byte m _ j hj]
    simp only [show wordBase a + j = a.toNat ↔ j = a.toNat % 4 by omega]
  · rw [read_writeWord_other m _ (by omega), if_neg (by omega)]

/-! ### Loads outside MMIO (R34, R36, R38) -/

theorem loadWord_in_ram {s : State} {a : Word} (h : a.toNat < s.params.memSize) :
    s.loadWord a = (s, s.ram.readWord (wordBase a)) := by
  rw [State.loadWord, regionOf_ram.2 h]

/-- Below the MMIO window a load changes nothing and answers the word of its region, in the order of R34. -/
theorem loadWord_below_mmio {s : State} {a : Word} (h : a.toNat < s.params.ioStart) :
    s.loadWord a = (s, if a.toNat < s.params.memSize then s.ram.readWord (wordBase a)
      else if s.params.romStart ≤ a.toNat ∧ a.toNat < s.params.romStart + 4 * s.params.romWords then
        s.rom.readWord (wordBase a)
      else 0#32) := by
  by_cases hram : a.toNat < s.params.memSize
  · rw [loadWord_in_ram hram, if_pos hram]
  · rw [if_neg hram]
    by_cases hrom : s.params.romStart ≤ a.toNat ∧ a.toNat < s.params.romStart + 4 * s.params.romWords
    · have hregion : regionOf s.params a = .rom := regionOf_rom.2 (by omega)
      rw [State.loadWord, hregion, if_pos hrom]
    · have hregion : regionOf s.params a = .none := by
        rw [regionOf, if_neg hram, if_neg (by omega), if_neg (by omega)]
      rw [State.loadWord, hregion, if_neg hrom]

/-- A byte load answers the byte at the address itself, in the same regions. -/
theorem loadByte_below_mmio {s : State} {a : Word} (h : a.toNat < s.params.ioStart) :
    s.loadByte a = (s, if a.toNat < s.params.memSize then s.ram.read a.toNat
      else if s.params.romStart ≤ a.toNat ∧ a.toNat < s.params.romStart + 4 * s.params.romWords then
        s.rom.read a.toNat
      else 0#8) := by
  rw [State.loadByte, loadWord_below_mmio h]
  split
  · rw [laneByte_readWord]
  · split
    · rw [laneByte_readWord]
    · rw [laneByte_zero]

/-- Settles O43: the word of the region goes through the write path. -/
theorem loadWordResult : Obligations.LoadWordResult := by
  rintro a b off s ea - rfl hio
  refine ⟨_, rfl, ?_⟩
  rw [loadWord_below_mmio hio, writeLoaded, reg_writeReg_same, wordBase_eq]
  exact ⟨rfl, writeReg_registerWrite s a _, ⟨rfl, rfl⟩, rfl⟩

@[simp] theorem toNat_zeroExtended (b : Byte) : (b.setWidth 32).toNat = b.toNat :=
  BitVec.toNat_setWidth_of_le (by decide)

/-- A zero-extended byte is not negative. -/
@[simp] theorem negativeFlag_zeroExtended (b : Byte) : negativeFlag (b.setWidth 32) = false := by
  simp [negativeFlag]

/-- Settles O44: the byte of the region, zero-extended, goes through the write path. -/
theorem loadByteResult : Obligations.LoadByteResult := by
  rintro a b off s ea - rfl hio
  refine ⟨_, rfl, ?_⟩
  rw [loadByte_below_mmio hio, writeLoaded, reg_writeReg_same, toNat_zeroExtended, apply_ite BitVec.toNat,
    apply_ite BitVec.toNat]
  exact ⟨rfl, negativeFlag_zeroExtended _, writeReg_registerWrite s a _, ⟨rfl, rfl⟩, rfl⟩

/-! ### Stores outside MMIO (R37, R39) -/

theorem storeWord_in_ram {s : State} {a : Word} (h : a.toNat < s.params.memSize) (v : Word) :
    s.storeWord a v = s.storeRamWord a v := by
  rw [State.storeWord, regionOf_ram.2 h]

theorem storeByte_in_ram {s : State} {a : Word} (h : a.toNat < s.params.memSize) (b : Byte) :
    s.storeByte a b = s.storeRamWord a (withLaneByte (s.ram.readWord (wordBase a)) a b) := by
  rw [State.storeByte, regionOf_ram.2 h]
  exact storeWord_in_ram h _

theorem exec_stw_in_ram {a b : Reg} {off : BitVec 20} {s : State}
    (h : (s.effectiveAddress b off).toNat < s.params.memSize) :
    exec (.stw a b off) s = .next (s.storeRamWord (s.effectiveAddress b off) (s.reg a)) :=
  congrArg Host.Outcome.next (storeWord_in_ram h _)

theorem exec_stb_in_ram {a b : Reg} {off : BitVec 20} {s : State}
    (h : (s.effectiveAddress b off).toNat < s.params.memSize) :
    exec (.stb a b off) s = .next (s.storeRamWord (s.effectiveAddress b off)
      (withLaneByte (s.ram.readWord (wordBase (s.effectiveAddress b off))) (s.effectiveAddress b off)
        ((s.reg a).extractLsb' 0 8))) :=
  congrArg Host.Outcome.next (storeByte_in_ram h _)

/-- What a RAM store leaves alone: all but RAM and, in the display region, the damage rectangle (R37, R44). -/
theorem storeRamWord_frame (s : State) (a v : Word) :
    (a.toNat < s.params.displayStart → (s.storeRamWord a v).damage = s.damage) ∧
    AllRegsSame s (s.storeRamWord a v) ∧ SameFlags s (s.storeRamWord a v) ∧ (s.storeRamWord a v).h = s.h ∧
    (s.storeRamWord a v).pc = s.pc ∧ (s.storeRamWord a v).rom = s.rom ∧
    SameDevices s { s.storeRamWord a v with damage := s.damage } :=
  ⟨fun h => if_neg (by omega), allRegsSame_refl s, ⟨rfl, rfl, rfl, rfl⟩, rfl, rfl, rfl,
    rfl, rfl, rfl, rfl, rfl, rfl, rfl, rfl, rfl, rfl, rfl, rfl, rfl, rfl, rfl⟩

/-- Settles O45: the RAM store of the aligned word. -/
theorem storeWordToRam : Obligations.StoreWordToRam := by
  rintro a b off s ea hwf rfl hram
  refine ⟨_, exec_stw_in_ram hram, ?_⟩
  rw [← wordBase_eq]
  exact ⟨readWord_writeWord_same s.ram hwf _ _, fun k => storeRamWord_read_other s _ _ k, storeRamWord_frame s _ _⟩

/-- Settles O46: the RAM store of the aligned word with one lane replaced. -/
theorem storeByteToRam : Obligations.StoreByteToRam := by
  rintro a b off s ea hwf rfl hram
  have hread := read_writeWord_withLaneByte hwf (s.effectiveAddress b off) ((s.reg a).extractLsb' 0 8)
  refine ⟨_, exec_stb_in_ram hram, ?_, fun k hk => ?_, storeRamWord_frame s _ _⟩
  · rw [storeRamWord_ram, hread, if_pos rfl]
    simp
  · rw [storeRamWord_ram, hread, if_neg hk]

/-- From the end of RAM up to the MMIO window there is nothing to store to. -/
theorem store_outside_ram {s : State} {a : Word} (hmem : s.params.memSize ≤ a.toNat)
    (hio : a.toNat < s.params.ioStart) (v : Word) (b : Byte) : s.storeWord a v = s ∧ s.storeByte a b = s := by
  have hram : regionOf s.params a ≠ .ram := fun h => by have := regionOf_ram.1 h; omega
  have hmmio : regionOf s.params a ≠ .mmio := fun h => by have := regionOf_mmio.1 h; omega
  constructor
  · rcases storeWord_cases s a v with ⟨h, -⟩ | ⟨h, -⟩ | ⟨-, e⟩
    exacts [absurd h hram, absurd h hmmio, e]
  · rcases storeByte_cases s a b with ⟨h, -⟩ | ⟨h, -⟩ | ⟨-, e⟩
    exacts [absurd h hram, absurd h hmmio, e]

/-- Settles O47: neither bus operation has an effect there. -/
theorem storeOutsideRamIgnored : Obligations.StoreOutsideRamIgnored := by
  intro a b off s hmem hio
  obtain ⟨hword, hbyte⟩ := store_outside_ram hmem hio (s.reg a) ((s.reg a).extractLsb' 0 8)
  exact ⟨congrArg _ hword, congrArg _ hbyte⟩

/-! ### A load or fetch after a store (R40, R51) -/

/-- In RAM, a load of an address in the word just written answers that word. -/
theorem loadWord_storeRamWord {s : State} {a b : Word} (hwf : s.ram.wf) (hb : b.toNat < s.params.memSize)
    (hbase : wordBase a = wordBase b) (v : Word) :
    (s.storeRamWord a v).loadWord b = (s.storeRamWord a v, v) := by
  rw [loadWord_in_ram (by exact hb), storeRamWord_ram, hbase, readWord_writeWord_same s.ram hwf]

/-- A fetch at the word just written answers that word. -/
theorem fetch_storeRamWord {s : State} {a b : Word} (hp : s.params.wf) (hwf : s.ram.wf)
    (hb : b.toNat < s.params.memSize) (hbase : wordBase a = wordBase b) (v : Word) :
    ({ s.storeRamWord a v with pc := b >>> 2 } : State).fetch = some v := by
  obtain ⟨⟨haligned, -⟩, -⟩ := hp
  have hpc : (b >>> 2).toNat = b.toNat / 4 := by simp [Nat.shiftRight_eq_div_pow]
  have hindex : (b >>> 2).toNat < s.params.memSize / 4 := by omega
  have hbyte : 4 * (b >>> 2).toNat = wordBase a := by rw [hpc, hbase, wordBase]
  rw [fetch_ram (by exact hindex)]
  exact congrArg some (by rw [hbyte]; exact readWord_writeWord_same s.ram hwf _ v)

/-- Settles O48: each access after the store reads the one word that the store wrote. -/
theorem storeThenLoad : Obligations.StoreThenLoad := by
  intro s a b v x hp hwf ha hsame
  have hbase : wordBase a = wordBase b := by rw [wordBase, wordBase, hsame]
  have hb : b.toNat < s.params.memSize := by
    obtain ⟨⟨haligned, -⟩, -⟩ := hp
    omega
  have hload (w : Word) := loadWord_storeRamWord hwf hb hbase w
  rw [storeWord_in_ram ha, storeByte_in_ram ha, State.loadByte, hload, hload, loadWord_in_ram hb, ← hbase]
  exact ⟨rfl, rfl, fun k hk => getLsbD_withLaneByte _ a x hk, fetch_storeRamWord hp hwf hb hbase v⟩

/-! ### Damage (R44 to R46) -/

/-- The mark of the address whose framebuffer word is at `row` and `col`. -/
theorem damageMark_point {p : Config.Params} {a : Word} {row col : Nat} (hp : p.wf) (hcol : col < p.fbWidth)
    (hlow : p.displayStart ≤ a.toNat) (hpoint : row * p.fbWidth + col = (a.toNat - p.displayStart) / 4) (r : Rect) :
    damageMark p a r = if row < p.fbHeight then r.mark col row else r := by
  obtain ⟨-, -, -, ⟨haligned, -⟩, -⟩ := hp
  have hoffset : frameOffset p a = col + p.fbWidth * row := by
    rw [Nat.add_comm, Nat.mul_comm, hpoint, frameOffset]
    omega
  have hrow : frameOffset p a / p.fbWidth = row := by
    rw [hoffset, Nat.add_mul_div_left _ _ (by omega), Nat.div_eq_of_lt hcol, Nat.zero_add]
  have hrem : frameOffset p a % p.fbWidth = col := by
    rw [hoffset, Nat.add_mul_mod_self_left, Nat.mod_eq_of_lt hcol]
  rw [damageMark, hrow, hrem]

/-- What a RAM store of that word does to the rectangle (R37, R45). -/
theorem storeRamWord_damage_point {s : State} {a : Word} {row col : Nat} (hp : s.params.wf)
    (hcol : col < s.params.fbWidth) (hlow : s.params.displayStart ≤ a.toNat)
    (hpoint : row * s.params.fbWidth + col = (a.toNat - s.params.displayStart) / 4) (v : Word) :
    (s.storeRamWord a v).damage = if row < s.params.fbHeight then s.damage.mark col row else s.damage := by
  rw [storeRamWord_damage, if_pos hlow, damageMark_point hp hcol hlow hpoint]

/-- In the empty rectangle a point of the framebuffer marks itself alone (R46). -/
theorem mark_emptyRect {p : Config.Params} {row col : Nat} (hcol : col < p.fbWidth) (hrow : row < p.fbHeight) :
    (emptyRect p).mark col row = ⟨col, row, col, row⟩ := by
  simp [Rect.mark, emptyRect, hcol.le, hrow.le]

/-- Settles O49: a store of a word or of a byte marks the same point, in whatever rectangle the state has. -/
theorem displayStoreMarksDamage : Obligations.DisplayStoreMarksDamage := by
  refine fun s => ⟨rfl, ?_⟩
  rintro a b off ea row col hp rfl hlow hmem hcol hpoint
  have hdamage := storeRamWord_damage_point hp hcol hlow hpoint
  refine ⟨_, _, _, exec_stw_in_ram hmem, exec_stb_in_ram hmem, exec_stw_in_ram (s := s.consumeDamage.2) hmem,
    fun hrow => ?_, fun hrow => ?_⟩
  · rw [hdamage, hdamage, if_pos hrow]
    have hempty := storeRamWord_damage_point (s := s.consumeDamage.2) hp hcol hlow hpoint (s.reg a)
    exact ⟨rfl, rfl, hempty.trans ((if_pos hrow).trans (mark_emptyRect hcol hrow))⟩
  · rw [hdamage, hdamage, if_neg (by omega)]
    exact ⟨rfl, rfl⟩

end Sys2Proof.Machine
end

section
/-! Byte accesses to MMIO (R38, R39, R121, R122). -/

namespace Sys2Proof.Machine

/-- The registers stand at multiples of 4, so an unaligned offset matches none (R120, R121). -/
theorem mmioRegAt_unaligned {off : Nat} (h : off % 4 ≠ 0) : mmioRegAt off = none := by
  unfold mmioRegAt
  repeat rw [if_neg (by omega)]

theorem regionOf_mmio_of_wf {p : Config.Params} {a : Word} (hp : p.wf) (hio : p.ioStart ≤ a.toNat) :
    regionOf p a = .mmio := by
  obtain ⟨-, -, ⟨-, hmem⟩, -⟩ := hp
  exact regionOf_mmio.2 ⟨hmem.trans hio, hio⟩

/-- An unaligned MMIO load reads 0 (R121). -/
theorem loadWord_mmio_unaligned {s : State} {a : Word} (hp : s.params.wf) (hio : s.params.ioStart ≤ a.toNat)
    (h : a.toNat % 4 ≠ 0) : s.loadWord a = (s, 0#32) := by
  have hregion := regionOf_mmio_of_wf hp hio
  obtain ⟨-, -, ⟨haligned, -⟩, -⟩ := hp
  have hsel : mmioSelect s.params a = none := mmioRegAt_unaligned (by omega)
  simp only [State.loadWord, hregion, State.mmioRead, hsel]

/-- The byte an MMIO load gives: byte 0 of the word at an aligned address, and 0 at any other (R38). -/
theorem loadByte_mmio_toNat {s : State} {a : Word} (hp : s.params.wf) (hio : s.params.ioStart ≤ a.toNat) :
    (s.loadByte a).2.toNat = if a.toNat % 4 = 0 then (s.loadWord a).2.toNat % 256 else 0 := by
  rw [State.loadByte]
  split
  · next haligned => simp [laneByte, laneShift, haligned]
  · next hunaligned => simp [loadWord_mmio_unaligned hp hio hunaligned]

/-- In MMIO, a byte store is the word store of the zero-extended byte (R39). -/
theorem storeByte_mmio {s : State} {a : Word} (hp : s.params.wf) (hio : s.params.ioStart ≤ a.toNat) (b : Byte) :
    s.storeByte a b = s.storeWord a (b.setWidth 32) := by
  simp only [State.storeByte, State.storeWord, regionOf_mmio_of_wf hp hio]

/-- The zero-extended low byte of a word, in numbers. -/
theorem lowByte_zeroExtended (v : Word) : (v.extractLsb' 0 8).setWidth 32 = BitVec.ofNat 32 (v.toNat % 256) :=
  BitVec.eq_of_toNat_eq (by rw [toNat_zeroExtended]; simp; omega)

/-- Two writes to one register of one state differ in that register, `Z` and `N` alone (R15). -/
theorem writeReg_two_values (s : State) (a : Reg) (v w : Word) :
    s.writeReg a w = { s.writeReg a v with
      regs := (s.writeReg a w).regs, flagN := (s.writeReg a w).flagN, flagZ := (s.writeReg a w).flagZ } ∧
    OtherRegsSame (s.writeReg a v) (s.writeReg a w) a :=
  ⟨rfl, fun _ hr => (reg_writeReg_other s w hr).trans (reg_writeReg_other s v hr).symm⟩

/-- Settles O53: both loads write their register in the state that one bus read left. -/
theorem mmioByteAccess : Obligations.MmioByteAccess := by
  intro a b off s hp hio
  refine ⟨⟨_, _, rfl, rfl, ?_, negativeFlag_zeroExtended _, writeReg_signZero _ a _,
    writeReg_two_values _ a _ _⟩, ?_⟩
  · rw [writeLoaded, writeLoaded, reg_writeReg_same, reg_writeReg_same, toNat_zeroExtended]
    exact loadByte_mmio_toNat hp hio
  · rw [← lowByte_zeroExtended, ← storeByte_mmio hp hio]
    rfl

end Sys2Proof.Machine
end

section
/-! The decoder and the encoder: every word is one of the three formats (R55), every word decodes to a well-formed
instruction (R64), the encoding of an instruction decodes to it (R57 to R63), and only ignored bits are lost (R65). -/

namespace Sys2Proof

open Machine (ignoredBits)

/-! ### The fields of a word make it up (R55 to R57, R61, R62) -/

@[simp] theorem opcodeBits_opcodeOfBits : ∀ op : BitVec 4, opcodeBits (opcodeOfBits op) = op := by decide

@[simp] theorem condBits_condOfBits : ∀ cond : BitVec 3, condBits (condOfBits cond) = cond := by decide

/-- Two adjacent fields are one field. -/
theorem join_fields {n start len len' : Nat} {w : BitVec n} :
    w.extractLsb' (start + len) len' ++ w.extractLsb' start len = w.extractLsb' start (len' + len) :=
  BitVec.extractLsb'_append_extractLsb'_eq_extractLsb' rfl

/-- A one-bit field is a bit. -/
theorem ofBool_getLsbD {n : Nat} (w : BitVec n) (i : Nat) : BitVec.ofBool (w.getLsbD i) = w.extractLsb' i 1 := by
  ext j hj
  simp [show j = 0 by omega]

/-- The format bits of a word (R55). -/
theorem formatBits_eq {w : Word} {p q : Bool} (hp : bitP w = p) (hq : bitQ w = q) :
    BitVec.ofBool p ++ BitVec.ofBool q = w.extractLsb' 30 2 := by
  rw [← hp, ← hq, bitP, bitQ, ofBool_getLsbD, ofBool_getLsbD]
  exact join_fields (start := 30) (len := 1)

theorem registerWord_fields {w : Word} (h : bitP w = false) :
    registerWord (bitQ w) (bitU w) (bitV w) (fieldA w) (fieldB w) (opcodeOfBits (fieldOp w)) (fieldImm w) = w := by
  have hformat : 0#1 ++ BitVec.ofBool (bitQ w) = w.extractLsb' 30 2 := formatBits_eq h rfl
  rw [registerWord, hformat, opcodeBits_opcodeOfBits, bitU, bitV, ofBool_getLsbD, ofBool_getLsbD]
  simp only [fieldA, fieldB, fieldOp, fieldImm]
  rw [join_fields (start := 29) (len := 1), join_fields (start := 28) (len := 1), join_fields (start := 24) (len := 4),
    join_fields (start := 20) (len := 4), join_fields (start := 16) (len := 4), join_fields (start := 0) (len := 16)]
  exact BitVec.extractLsb'_eq_self

theorem memoryWord_fields {w : Word} (hp : bitP w = true) (hq : bitQ w = false) :
    memoryWord (bitU w) (bitV w) (fieldA w) (fieldB w) (fieldOff20 w) = w := by
  have hformat : 2#2 = w.extractLsb' 30 2 := formatBits_eq hp hq
  rw [memoryWord, hformat, bitU, bitV, ofBool_getLsbD, ofBool_getLsbD]
  simp only [fieldA, fieldB, fieldOff20]
  rw [join_fields (start := 29) (len := 1), join_fields (start := 28) (len := 1), join_fields (start := 24) (len := 4),
    join_fields (start := 20) (len := 4), join_fields (start := 0) (len := 20)]
  exact BitVec.extractLsb'_eq_self

theorem branchWord_fields {w : Word} (hp : bitP w = true) (hq : bitQ w = true) :
    branchWord (bitU w) (bitV w) (bitInv w) (condOfBits (fieldCond w)) (fieldOff24 w) = w := by
  have hformat : 3#2 = w.extractLsb' 30 2 := formatBits_eq hp hq
  rw [branchWord, hformat, condBits_condOfBits, bitU, bitV, bitInv, ofBool_getLsbD, ofBool_getLsbD, ofBool_getLsbD]
  simp only [fieldCond, fieldOff24]
  rw [join_fields (start := 29) (len := 1), join_fields (start := 28) (len := 1), join_fields (start := 27) (len := 1),
    join_fields (start := 24) (len := 3), join_fields (start := 0) (len := 24)]
  exact BitVec.extractLsb'_eq_self

/-- Every word is of one of the three formats (R55): what holds of each format's words holds of every word. -/
theorem word_of_format {P : Word → Prop} (hregister : ∀ q u v a b op low, P (registerWord q u v a b op low))
    (hmemory : ∀ u v a b off, P (memoryWord u v a b off))
    (hbranch : ∀ u v inv cond low, P (branchWord u v inv cond low)) (w : Word) : P w := by
  cases hp : bitP w with
  | false => exact registerWord_fields hp ▸ hregister ..
  | true =>
    cases hq : bitQ w with
    | false => exact memoryWord_fields hp hq ▸ hmemory ..
    | true => exact branchWord_fields hp hq ▸ hbranch ..

/-! ### Decoding a word of each format (R55) -/

@[simp] theorem decodeWord_registerWord (q u v : Bool) (a b : Reg) (op : Opcode) (low : BitVec 16) :
    decodeWord (registerWord q u v a b op low) = decodeRegister (registerWord q u v a b op low) := by
  simp [decodeWord]

@[simp] theorem decodeWord_plainWord (u : Bool) (a b : Reg) (op : Opcode) (c : Operand) :
    decodeWord (plainWord u a b op c) = decodeRegister (plainWord u a b op c) := decodeWord_registerWord ..

@[simp] theorem decodeWord_memoryWord (u v : Bool) (a b : Reg) (off : BitVec 20) :
    decodeWord (memoryWord u v a b off) = decodeMemory (memoryWord u v a b off) := by
  simp [decodeWord]

@[simp] theorem decodeWord_branchWord (u v inv : Bool) (cond : Cond) (low : BitVec 24) :
    decodeWord (branchWord u v inv cond low) = decodeBranch (branchWord u v inv cond low) := by
  simp [decodeWord]

/-! ### Decoding an encoded instruction -/

/-- The decoder undoes the encoder, row by row of the table; FAD and FSB need their fill and mode to agree (R65). -/
theorem decodeWord_encode {i : Instr} (h : i.WellFormed) : decodeWord (encode i) = i := by
  cases i with
  | mov | movu | movf | movh => simp [encode, decodeRegister, decodeMov]
  | fad a b u v c => simp [encode, decodeRegister, operandOf_registerWord u v a b .fad c h]
  | fsb a b u v c => simp [encode, decodeRegister, operandOf_registerWord u v a b .fsb c h]
  | ldw | ldb | stw | stb => simp [encode, decodeMemory]
  | bReg | blReg | bOff | blOff => simp [encode, decodeBranch]
  | lsl | asr | ror | and | ann | ior | xor | add | sub | mul | mulu | div | fml | fdv =>
    simp [encode, decodeRegister]

/-- Settles O1: an instruction is encoded to the bytes of one word, and the decoder reads that word. -/
theorem decodeEncodeRoundTrip : Obligations.DecodeEncodeRoundTrip := by
  intro i h
  rw [encodeBytes, decode_bytesOfWord, decodeWord_encode h]

/-! ### Every word decodes (R64) -/

theorem decode_bytesOfWord_append (w : Word) (rest : List Byte) :
    decode (bytesOfWord w ++ rest) = .ok (decodeWord w, rest) := by
  simp only [bytesOfWord, List.cons_append, List.nil_append, decode, wordOfBytes, Machine.word_of_bytes]

/-- An operand takes its fill from the bit that FAD and FSB take `v` from (R65). -/
theorem operandOf_fillAgrees (w : Word) : (operandOf w).fillAgrees (bitV w) = true := by
  unfold operandOf
  split
  · exact beq_self_eq_true _
  · rfl

theorem decodeMov_wellFormed (w : Word) : (decodeMov w).WellFormed := by
  unfold decodeMov
  split <;> rfl

theorem decodeRegister_wellFormed (w : Word) : (decodeRegister w).WellFormed := by
  unfold decodeRegister
  split
  case h_1 => exact decodeMov_wellFormed w
  case h_11 => split <;> rfl
  case h_13 | h_14 => exact operandOf_fillAgrees w
  all_goals rfl

theorem decodeWord_wellFormed : ∀ w : Word, (decodeWord w).WellFormed := by
  refine word_of_format (fun q u v a b op low => ?_) (fun u v a b off => ?_) (fun u v inv cond low => ?_)
  · rw [decodeWord_registerWord]
    exact decodeRegister_wellFormed _
  · rw [decodeWord_memoryWord, decodeMemory]
    split <;> rfl
  · rw [decodeWord_branchWord, decodeBranch]
    split <;> rfl

/-- No instruction stops the machine: a DIV whose divisor is not positive goes on too (R64, R110). -/
theorem exec_answers (i : Instr) (s : Machine.State) : ∃ t, Machine.exec i s = .next t := by
  cases i with
  | div a b c =>
    simp only [Machine.exec, Machine.execDiv]
    split <;> exact ⟨_, rfl⟩
  | _ => exact ⟨_, rfl⟩

/-- Settles O2: the decoder is a function, and its answer is well-formed and executes. -/
theorem everyWordDecodes : Obligations.EveryWordDecodes := by
  intro w rest
  have hdecode := decode_bytesOfWord_append w rest
  refine ⟨decodeWord w, hdecode, decodeWord_wellFormed w, fun j hj => ?_, exec_answers (decodeWord w)⟩
  rw [hdecode] at hj
  cases hj
  rfl

/-! ### Clearing the ignored bits (R65) -/

/-- Clearing bits of an appended word, part by part. -/
theorem append_clear {n m : Nat} {x mx x' : BitVec n} {y my y' : BitVec m} (hx : x &&& ~~~mx = x')
    (hy : y &&& ~~~my = y') : (x ++ y) &&& ~~~(mx ++ my) = x' ++ y' := by
  rw [BitVec.not_append, BitVec.and_append, hx, hy]

theorem ofBool_clear (x m : Bool) : BitVec.ofBool x &&& ~~~BitVec.ofBool m = BitVec.ofBool (x && !m) := by
  cases x <;> cases m <;> rfl

theorem clear_nothing {n : Nat} (x : BitVec n) : x &&& ~~~0#n = x := by simp

theorem clear_all {n : Nat} (x : BitVec n) : x &&& ~~~BitVec.allOnes n = 0#n := by simp

/-- A mask of `u`, of `v`, of bits of `b` and of bits of the low half of a register-format word (R57). -/
def registerMask (mu mv : Bool) (mb : BitVec 4) (mlow : BitVec 16) : Word :=
  0#1 ++ 0#1 ++ BitVec.ofBool mu ++ BitVec.ofBool mv ++ 0#4 ++ mb ++ 0#4 ++ mlow

theorem registerWord_clear (q u v : Bool) (a b : Reg) (op : Opcode) (low : BitVec 16) (mu mv : Bool) (mb : BitVec 4)
    (mlow : BitVec 16) :
    registerWord q u v a b op low &&& ~~~registerMask mu mv mb mlow =
      registerWord q (u && !mu) (v && !mv) a (b &&& ~~~mb) op (low &&& ~~~mlow) :=
  append_clear (append_clear (append_clear (append_clear (append_clear (append_clear (append_clear
    (clear_nothing _) (clear_nothing _)) (ofBool_clear u mu)) (ofBool_clear v mv)) (clear_nothing a)) rfl)
    (clear_nothing _)) rfl

theorem branchWord_clear (u v inv : Bool) (cond : Cond) (low mlow : BitVec 24) :
    branchWord u v inv cond low &&& ~~~(0#2 ++ 0#1 ++ 0#1 ++ 0#1 ++ 0#3 ++ mlow : Word) =
      branchWord u v inv cond (low &&& ~~~mlow) :=
  append_clear (append_clear (append_clear (append_clear (append_clear (clear_nothing _) (clear_nothing _))
    (clear_nothing _)) (clear_nothing _)) (clear_nothing _)) rfl

/-- A number cleared above its low four bits is the register those bits name (R57, R62). -/
theorem clear_above_register {n : Nat} (x : BitVec (n + 4)) :
    x &&& ~~~(BitVec.allOnes n ++ 0#4) = 0#n ++ x.extractLsb' 0 4 := by
  have hx : x.extractLsb' 4 n ++ x.extractLsb' 0 4 = x :=
    (join_fields (start := 0) (len := 4)).trans BitVec.extractLsb'_eq_self
  exact (congrArg (· &&& _) hx.symm).trans (append_clear (clear_all _) (clear_nothing _))

/-! ### The operand of a word -/

/-- What an operand leaves unread of the low half: nothing of an immediate, bits 15:4 for a register (R65). -/
def ignoredLow (q : Bool) : BitVec 16 := if q then 0#16 else 0xFFF0#16

@[simp] theorem operandQ_operandOf (w : Word) : operandQ (operandOf w) = bitQ w := by
  cases h : bitQ w <;> simp [operandOf, operandQ, h]

@[simp] theorem operandV_operandOf (w : Word) : operandV (operandOf w) = (bitQ w && bitV w) := by
  cases h : bitQ w <;> simp [operandOf, operandV, h]

theorem fieldC_eq (w : Word) : fieldC w = (fieldImm w).extractLsb' 0 4 := by
  simp [fieldC, fieldImm]

@[simp] theorem operandLow_operandOf (w : Word) :
    operandLow (operandOf w) = fieldImm w &&& ~~~ignoredLow (bitQ w) := by
  cases h : bitQ w with
  | true => simp only [operandOf, operandLow, ignoredLow, h, if_true, clear_nothing]
  | false =>
    simp only [operandOf, operandLow, h, Bool.false_eq_true, if_false, fieldC_eq]
    exact (clear_above_register (n := 12) (fieldImm w)).symm

/-! ### Encoding a decoded word -/

/-- A register-format word comes back without its ignored bits, once they are known field by field. -/
theorem encode_decodeWord_of_ignored {q u v : Bool} {a b : Reg} {op : Opcode} {low : BitVec 16} {mu mv : Bool}
    {mb b' : BitVec 4} {mlow low' : BitVec 16} (hb : b &&& ~~~mb = b') (hlow : low &&& ~~~mlow = low')
    (hignored : ignoredBits (registerWord q u v a b op low) = registerMask mu mv mb mlow)
    (hencode : encode (decodeWord (registerWord q u v a b op low)) =
      registerWord q (u && !mu) (v && !mv) a b' op low') :
    encode (decodeWord (registerWord q u v a b op low)) =
      registerWord q u v a b op low &&& ~~~ignoredBits (registerWord q u v a b op low) := by
  rw [hencode, hignored, registerWord_clear, hb, hlow]

section
variable (q u v : Bool) (a b : Reg) (op : Opcode) (low : BitVec 16)

/-- MOV ignores `b`, and of the operand what its mode does not take (R60). -/
theorem encode_decodeWord_mov : encode (decodeWord (registerWord q u v a b .mov low)) =
    registerWord q u v a b .mov low &&& ~~~ignoredBits (registerWord q u v a b .mov low) := by
  cases u with
  | false =>
    refine encode_decodeWord_of_ignored (mu := false) (mv := !q) (mlow := ignoredLow q) (clear_all b) rfl ?_ ?_
    · cases q <;> simp [ignoredBits] <;> rfl
    · simp [decodeRegister, decodeMov, encode, plainWord, Bool.and_comm]
  | true =>
    cases q with
    | true =>
      refine encode_decodeWord_of_ignored (mu := false) (mv := true) (clear_all b) (clear_nothing low) ?_ ?_
      · simp [ignoredBits]; rfl
      · simp [decodeRegister, decodeMov, encode]
    | false =>
      refine encode_decodeWord_of_ignored (mu := false) (mv := false) (clear_all b) (clear_all low) ?_ ?_
      · simp [ignoredBits]; rfl
      · cases v <;> simp [decodeRegister, decodeMov, encode]

/-- The ignored bits of a register-format word are those of its operand, and `u` except where it chooses
MULU or the mode of FAD and FSB. -/
theorem encode_decodeWord_registerWord : encode (decodeWord (registerWord q u v a b op low)) =
    registerWord q u v a b op low &&& ~~~ignoredBits (registerWord q u v a b op low) := by
  cases op with
  | mov => exact encode_decodeWord_mov q u v a b low
  | mul =>
    refine encode_decodeWord_of_ignored (mu := false) (mv := !q) (mlow := ignoredLow q) (clear_nothing b) rfl ?_ ?_
    · cases q <;> simp [ignoredBits] <;> rfl
    · cases u <;> simp [decodeRegister, encode, plainWord, Bool.and_comm]
  | fad | fsb =>
    refine encode_decodeWord_of_ignored (mu := false) (mv := false) (mlow := ignoredLow q) (clear_nothing b) rfl ?_ ?_
    · cases q <;> simp [ignoredBits] <;> rfl
    · simp [decodeRegister, encode]
  | lsl | asr | ror | and | ann | ior | xor | add | sub | div | fml | fdv =>
    refine encode_decodeWord_of_ignored (mu := true) (mv := !q) (mlow := ignoredLow q) (clear_nothing b) rfl ?_ ?_
    · cases q <;> simp [ignoredBits] <;> rfl
    · simp [decodeRegister, encode, plainWord, Bool.and_comm]

end

/-- A memory-format word has no ignored bits. -/
theorem encode_decodeWord_memoryWord (u v : Bool) (a b : Reg) (off : BitVec 20) :
    encode (decodeWord (memoryWord u v a b off)) =
      memoryWord u v a b off &&& ~~~ignoredBits (memoryWord u v a b off) := by
  have hignored : ignoredBits (memoryWord u v a b off) = 0#32 := by simp [ignoredBits]
  rw [hignored, clear_nothing, decodeWord_memoryWord]
  cases u <;> cases v <;> simp [decodeMemory, encode]

/-- A branch-format word has ignored bits above its register alone. -/
theorem encode_decodeWord_branchWord (u v inv : Bool) (cond : Cond) (low : BitVec 24) :
    encode (decodeWord (branchWord u v inv cond low)) =
      branchWord u v inv cond low &&& ~~~ignoredBits (branchWord u v inv cond low) := by
  cases u with
  | true =>
    have hignored : ignoredBits (branchWord true v inv cond low) = 0#32 := by simp [ignoredBits]
    rw [hignored, clear_nothing, decodeWord_branchWord]
    cases v <;> simp [decodeBranch, encode]
  | false =>
    have hignored : ignoredBits (branchWord false v inv cond low) =
        (0#2 ++ 0#1 ++ 0#1 ++ 0#1 ++ 0#3 ++ 0xFFFFF0#24 : Word) := by simp [ignoredBits]
    have hlow : low &&& ~~~0xFFFFF0#24 = 0#20 ++ low.extractLsb' 0 4 := clear_above_register (n := 20) low
    rw [hignored, branchWord_clear, hlow, decodeWord_branchWord]
    cases v <;> simp [decodeBranch, encode]

/-- Encoding a decoded word clears its ignored bits. -/
theorem encode_decodeWord : ∀ w : Word, encode (decodeWord w) = w &&& ~~~ignoredBits w :=
  word_of_format encode_decodeWord_registerWord encode_decodeWord_memoryWord encode_decodeWord_branchWord

/-- Settles O3: the cleared word is the encoding of the decoded instruction, which decodes to it. -/
theorem ignoredBitsChangeNothing : Obligations.IgnoredBitsChangeNothing := by
  intro w
  refine ⟨encode_decodeWord w, ?_⟩
  rw [← encode_decodeWord w, decodeWord_encode (decodeWord_wellFormed w)]

/-! ### Words written out by the spec -/

/-- A table word of 32 bits is read as itself. -/
theorem decodeTableWord_32 (w : Nat) : decodeTableWord 32 w = some (decodeWord (BitVec.ofNat 32 w)) := by
  rw [decodeTableWord, Machine.tableWord_32, decode_bytesOfWord]

/-- Settles O4, by decoding each word. -/
theorem specWordsDecode : Obligations.SpecWordsDecode := by
  simp only [Obligations.SpecWordsDecode, decodeTableWord_32]
  decide

end Sys2Proof
end

section
/-! Every step goes on (R64, R136), the pseudo-instructions (R67), and the conditions after a comparison by SUB (R63,
R81). -/

namespace Sys2Proof.Machine

/-- Settles O8: a step is an invalid fetch, or the instruction of the fetched word, and every instruction answers. -/
theorem stepNeverStops : Obligations.StepNeverStops := by
  intro s
  cases hfetch : s.fetch with
  | none => exact ⟨s.takeInvalidFetch, by rw [step, hfetch]⟩
  | some ir =>
    rw [step_of_fetch hfetch]
    exact exec_answers (decodeWord ir) _

/-! ### The pseudo-instructions (R67) -/

/-- A constant is its high half above its low half. -/
theorem halfWords_append (k : Word) : k.extractLsb' 16 16 ++ k.extractLsb' 0 16 = k :=
  (join_fields (start := 0) (len := 16)).trans BitVec.extractLsb'_eq_self

/-- A MOV immediate is a constant whose high half is the fill (R58). -/
theorem immediateValue_of_high {k : Word} {fill : Bool}
    (h : k.extractLsb' 16 16 = if fill then 0xFFFF#16 else 0#16) : immediateValue fill (k.extractLsb' 0 16) = k := by
  rw [immediateValue, ← h, halfWords_append]

/-- MOVU's immediate with IOR's is the constant of the two halves (R70, R78). -/
theorem movu_or_immediate (high low : BitVec 16) :
    immediateValue false high <<< 16 ||| immediateValue false low = high ++ low := by
  have hhigh : high.toNat < 2 ^ 16 := high.isLt
  apply BitVec.eq_of_toNat_eq
  rw [BitVec.toNat_or, BitVec.toNat_shiftLeft, immediateValue_toNat, immediateValue_toNat, BitVec.toNat_append]
  simp only [Bool.false_eq_true, if_false, Nat.zero_add, Nat.shiftLeft_eq]
  rw [Nat.mod_eq_of_lt (by omega)]

/-- A second write to the same register keeps the frame of the first. -/
theorem registerWrite_writeReg {s u : State} {a : Reg} (h : RegisterWrite s u a) (v : Word) :
    RegisterWrite s (u.writeReg a v) a := by
  obtain ⟨hother, -, hpc, hmemory, hdevices⟩ := h
  exact ⟨fun r hr => (reg_writeReg_other u v hr).trans (hother r hr), writeReg_signZero u a v, hpc, hmemory, hdevices⟩

/-- MOV of an immediate whose fill is the constant's high half loads the constant. -/
theorem mov_loads_constant (a : Reg) {k : Word} (s : State) {fill : Bool}
    (h : k.extractLsb' 16 16 = if fill then 0xFFFF#16 else 0#16) :
    ∃ t, exec (.mov a (.imm fill (k.extractLsb' 0 16))) s = .next t ∧
      t.reg a = k ∧ RegisterWrite s t a ∧ SameCV s t ∧ t.h = s.h :=
  ⟨_, rfl, (reg_writeReg_same s a _).trans (immediateValue_of_high h), writeReg_registerWrite s a _, ⟨rfl, rfl⟩, rfl⟩

/-- MOVU of the high half and IOR of the low half load the constant. -/
theorem movu_ior_load_constant (a : Reg) (k : Word) (s : State) :
    ∃ u t, exec (.movu a (k.extractLsb' 16 16)) s = .next u ∧
      exec (.ior a a (.imm false (k.extractLsb' 0 16))) u = .next t ∧
      t.reg a = k ∧ RegisterWrite s t a ∧ SameCV s t ∧ t.h = s.h := by
  refine ⟨_, _, rfl, rfl, ?_, registerWrite_writeReg (writeReg_registerWrite s a _) _, ⟨rfl, rfl⟩, rfl⟩
  rw [reg_writeReg_same, reg_writeReg_same, State.operand, movu_or_immediate, halfWords_append]

/-- Settles O27: the never taken branch, the branch to the link, and the three forms of LDI. -/
theorem pseudoInstructions : Obligations.PseudoInstructions := by
  intro a k s
  refine ⟨rfl, rfl, rfl, rfl, ?_⟩
  unfold ldiInstrs
  split
  · next hzeros =>
    obtain ⟨t, ht⟩ := mov_loads_constant a s (fill := false) hzeros
    exact .inl ⟨_, t, rfl, ht⟩
  · split
    · next hones =>
      obtain ⟨t, ht⟩ := mov_loads_constant a s (fill := true) hones
      exact .inl ⟨_, t, rfl, ht⟩
    · obtain ⟨u, t, ht⟩ := movu_ior_load_constant a k s
      exact .inr ⟨_, _, u, t, rfl, ht⟩

/-! ### The flags of SUB as comparisons (R63, R81) -/

section
variable (x y : Word)

/-- `C` of SUB: unsigned less than. -/
theorem subBorrow_iff : subBorrow x (x - y) = true ↔ x.toNat < y.toNat := by
  rw [subBorrow, BitVec.ult_iff_lt, BitVec.lt_def, BitVec.toNat_sub]
  omega

/-- `Z` of SUB: equal. -/
theorem zeroFlag_sub_iff : zeroFlag (x - y) = true ↔ x = y := by
  rw [zeroFlag_iff, BitVec.sub_eq_iff_eq_add, BitVec.zero_add]

/-- `N` and `V` of SUB differ: signed less than. The difference wraps exactly when `V` is set. -/
theorem sub_sign_ne_overflow_iff : negativeFlag (x - y) ≠ subOverflow x y (x - y) ↔ x.toInt < y.toInt := by
  have hx := x.toInt_lt
  have hx' := x.le_toInt
  have hy := y.toInt_lt
  have hy' := y.le_toInt
  have hsub : (x - y).toInt = (x.toInt - y.toInt).bmod (2 ^ 32) := BitVec.toInt_sub
  rw [Int.bmod_def] at hsub
  rw [ne_eq, Bool.eq_iff_iff, negativeFlag_iff, subOverflow, signs_differ]
  simp only [msb_eq_decide_neg, Bool.and_eq_true, bne_iff_ne, ne_eq, decide_eq_decide]
  omega

end

/-- The flags that SUB leaves compare its operands. -/
theorem sub_flags {a b : Reg} {c : Operand} {s t : State} (h : exec (.sub a b c) s = .next t) :
    (t.flagC = true ↔ (s.reg b).toNat < (s.operand c).toNat) ∧ (t.flagZ = true ↔ s.reg b = s.operand c) ∧
    (t.flagN ≠ t.flagV ↔ (s.reg b).toInt < (s.operand c).toInt) := by
  cases h
  exact ⟨subBorrow_iff .., zeroFlag_sub_iff .., sub_sign_ne_overflow_iff ..⟩

/-! ### The conditions (R63, R100) -/

section
variable (s : State)

theorem takes_inverted_iff (cond : Cond) : s.takes true cond = true ↔ ¬ s.takes false cond = true := by
  simp [State.takes]

theorem takes_eq_iff : s.takes false .eq = true ↔ s.flagZ = true := by simp [State.takes, condTest]

theorem takes_cs_iff : s.takes false .cs = true ↔ s.flagC = true := by simp [State.takes, condTest]

theorem takes_ls_iff : s.takes false .ls = true ↔ s.flagC = true ∨ s.flagZ = true := by simp [State.takes, condTest]

theorem takes_lt_iff : s.takes false .lt = true ↔ s.flagN ≠ s.flagV := by simp [State.takes, condTest]

theorem takes_le_iff : s.takes false .le = true ↔ s.flagN ≠ s.flagV ∨ s.flagZ = true := by
  simp [State.takes, condTest]

end

/-- Settles O56: each condition is a flag comparison of the operands, or its negation. -/
theorem conditionsAfterSubCompare : Obligations.ConditionsAfterSubCompare := by
  intro a b c s t h
  obtain ⟨hcarry, hzero, hsign⟩ := sub_flags h
  have hcs := (takes_cs_iff t).trans hcarry
  have hlt := (takes_lt_iff t).trans hsign
  have heq := (takes_eq_iff t).trans hzero
  have hls : t.takes false .ls = true ↔ (s.reg b).toNat ≤ (s.operand c).toNat := by
    rw [takes_ls_iff, hcarry, hzero, ← BitVec.toNat_inj, Nat.le_iff_lt_or_eq]
  have hle : t.takes false .le = true ↔ (s.reg b).toInt ≤ (s.operand c).toInt := by
    rw [takes_le_iff, hsign, hzero, ← BitVec.toInt_inj, Int.le_iff_lt_or_eq]
  simp only [takes_inverted_iff, hcs, hlt, heq, hls, hle, Nat.not_le, Nat.not_lt, Int.not_le, Int.not_lt, ne_eq,
    and_self]

end Sys2Proof.Machine
end

section
/-! The results of the moves, shifts, logic, ADD and SUB in numbers (R69, R70, R72 to R81), and DIV by a divisor that is
not positive (R83, R110). -/

namespace Sys2Proof.Machine

/-- All that a register write leaves alone: the frame, `C`, `V` and `H` (R15, R19, R22). -/
theorem writeReg_frame (s : State) (a : Reg) (v : Word) :
    RegisterWrite s (s.writeReg a v) a ∧ SameCV s (s.writeReg a v) ∧ (s.writeReg a v).h = s.h :=
  ⟨writeReg_registerWrite s a v, ⟨rfl, rfl⟩, rfl⟩

/-- ADD and SUB set `C` and `V` before their register write, outside of its frame (R22). -/
theorem registerWrite_setCV (s : State) (c v : Bool) (a : Reg) (r : Word) :
    RegisterWrite s ((s.setCV c v).writeReg a r) a :=
  writeReg_registerWrite (s.setCV c v) a r

/-! ### Shifts (R73 to R75) -/

section
variable (x : Word)

theorem toNat_shiftLeft_eq_mul (n : Nat) : (x <<< n).toNat = x.toNat * 2 ^ n % 2 ^ 32 := by
  rw [BitVec.toNat_shiftLeft, Nat.shiftLeft_eq]

/-- The division rounds down, as `/` does for a positive divisor. -/
theorem toInt_sshiftRight_eq_div (n : Nat) : (x.sshiftRight n).toInt = x.toInt / 2 ^ n := by
  rw [BitVec.toInt_sshiftRight, Int.shiftRight_eq_div_pow, Nat.cast_pow, Nat.cast_ofNat]

/-- R75's two shifts bring each bit down by `n` places, the low ones around: below `32 - n` the bit comes from the
right shift, from there on from the left one. For `n = 0` both are the word itself. -/
theorem getLsbD_rotateRightBy {n k : Nat} (hn : n < 32) (hk : k < 32) :
    (rotateRightBy x n).getLsbD k = x.getLsbD ((k + n) % 32) := by
  rw [rotateRightBy, BitVec.getLsbD_or, BitVec.getLsbD_ushiftRight, BitVec.getLsbD_shiftLeft]
  rcases Nat.eq_zero_or_pos n with rfl | hpos
  · simp [hk, Nat.mod_eq_of_lt hk]
  · rw [Nat.mod_eq_of_lt (by omega : 32 - n < 32)]
    by_cases hlow : k < 32 - n
    · have hidx : (k + n) % 32 = n + k := by omega
      simp [hlow, hidx]
    · have hidx : (k + n) % 32 = k - (32 - n) := by omega
      have hout : x.getLsbD (n + k) = false := BitVec.getLsbD_of_ge x _ (by omega)
      simp [hlow, hk, hidx, hout]

end

/-- Settles O28: the shift amount is the operand modulo 32, and each shift is its operation on values or bits. -/
theorem shiftResults : Obligations.ShiftResults := by
  intro a b c s
  refine ⟨⟨_, rfl, ?lsl, writeReg_frame ..⟩, ⟨_, rfl, ?asr, writeReg_frame ..⟩, ⟨_, rfl, ?ror, writeReg_frame ..⟩⟩
  case lsl => rw [reg_writeReg_same, shiftAmount_eq, toNat_shiftLeft_eq_mul]
  case asr => rw [reg_writeReg_same, shiftAmount_eq, toInt_sshiftRight_eq_div]
  case ror =>
    intro k hk
    rw [reg_writeReg_same, shiftAmount_eq, getLsbD_rotateRightBy _ (Nat.mod_lt _ (by decide)) hk, Nat.add_mod_mod]

/-! ### The flags of ADD and SUB (R80, R81) -/

section
variable (x y : Word)

/-- `C` of ADD: the unsigned sum does not fit. -/
theorem addCarry_iff : addCarry x (x + y) = true ↔ 2 ^ 32 ≤ x.toNat + y.toNat := by
  rw [addCarry, BitVec.ult_iff_lt, BitVec.lt_def, BitVec.toNat_add]
  omega

/-- `V` of ADD: the signed sum does not fit, which the signs show since it wraps by at most one turn. -/
theorem addOverflow_iff : addOverflow x y (x + y) = true ↔ (x + y).toInt ≠ x.toInt + y.toInt := by
  have hx := x.toInt_lt
  have hx' := x.le_toInt
  have hy := y.toInt_lt
  have hy' := y.le_toInt
  have hsum : (x + y).toInt = (x.toInt + y.toInt).bmod (2 ^ 32) := BitVec.toInt_add x y
  rw [Int.bmod_def] at hsum
  rw [addOverflow, signs_differ]
  simp only [msb_eq_decide_neg, Bool.and_eq_true, bne_iff_ne, ne_eq, decide_eq_decide]
  omega

/-- `V` of SUB: the signed difference does not fit. -/
theorem subOverflow_iff : subOverflow x y (x - y) = true ↔ (x - y).toInt ≠ x.toInt - y.toInt := by
  have hx := x.toInt_lt
  have hx' := x.le_toInt
  have hy := y.toInt_lt
  have hy' := y.le_toInt
  have hdiff : (x - y).toInt = (x.toInt - y.toInt).bmod (2 ^ 32) := BitVec.toInt_sub
  rw [Int.bmod_def] at hdiff
  rw [subOverflow, signs_differ]
  simp only [msb_eq_decide_neg, Bool.and_eq_true, bne_iff_ne, ne_eq, decide_eq_decide]
  omega

theorem toNat_sub_eq_emod : ((x - y).toNat : Int) = (x.toNat - y.toNat : Int) % 2 ^ 32 := by
  rw [BitVec.toNat_sub]
  omega

end

/-- Settles O30: the flags are those of the operands' sum, set before the write that keeps them. -/
theorem addResult : Obligations.AddResult := by
  intro a b c s
  refine ⟨_, rfl, ?_, addCarry_iff .., ?_, registerWrite_setCV .., rfl⟩ <;> rw [reg_writeReg_same]
  · exact BitVec.toNat_add ..
  · exact addOverflow_iff ..

/-- Settles O31: the flags are those of the operands' difference, set before the write that keeps them. -/
theorem subResult : Obligations.SubResult := by
  intro a b c s
  refine ⟨_, rfl, ?_, subBorrow_iff .., ?_, registerWrite_setCV .., rfl⟩ <;> rw [reg_writeReg_same]
  · exact toNat_sub_eq_emod ..
  · exact subOverflow_iff ..

/-! ### Moves and logic (R69 to R72, R76 to R79) -/

/-- MOVU's value: 16 bits in the high half (R70). -/
theorem movu_value_toNat (value : BitVec 16) :
    (immediateValue false value <<< 16).toNat = value.toNat * 65536 := by
  have hvalue : value.toNat < 2 ^ 16 := value.isLt
  rw [toNat_shiftLeft_eq_mul, immediateValue_toNat, if_neg (by decide)]
  omega

/-- Settles O25: each is one register write, of the operand, of the shifted immediate and of `H`. -/
theorem moveResults : Obligations.MoveResults := by
  intro a c value s
  refine ⟨⟨_, rfl, reg_writeReg_same .., writeReg_frame ..⟩, ⟨_, rfl, ?_, writeReg_frame ..⟩,
    ⟨_, rfl, reg_writeReg_same .., writeReg_frame ..⟩⟩
  rw [reg_writeReg_same, movu_value_toNat]

/-- ANN's value: above bit 31 both sides are clear (R77). -/
theorem getLsbD_and_not (x y : Word) (k : Nat) : (x &&& ~~~y).getLsbD k = (x.getLsbD k && !y.getLsbD k) := by
  rw [BitVec.getLsbD_and, BitVec.getLsbD_not]
  by_cases hk : k < 32
  · simp [hk]
  · simp [BitVec.getLsbD_of_ge x k (by omega)]

/-- Settles O29: each is one register write, of the operation on words, which works bit by bit. -/
theorem logicResults : Obligations.LogicResults := by
  intro a b c s
  refine ⟨⟨_, rfl, ?_, writeReg_frame ..⟩, ⟨_, rfl, ?_, writeReg_frame ..⟩, ⟨_, rfl, ?_, writeReg_frame ..⟩,
    ⟨_, rfl, ?_, writeReg_frame ..⟩⟩ <;> intro k <;> rw [reg_writeReg_same]
  · exact BitVec.getLsbD_and
  · exact getLsbD_and_not ..
  · exact BitVec.getLsbD_or
  · exact BitVec.getLsbD_xor

/-! ### DIV by a divisor that is not positive (R83, R110) -/

/-- DIV with a divisor that is not positive emits its diagnostic and writes neither register nor `H`. -/
theorem execDiv_of_nonpos {a b : Reg} {c : Operand} {s : State} (hd : (s.operand c).toInt ≤ 0) :
    execDiv a b c s = .next (s.emit (.divNonPositive (s.pc - 1#32) (s.operand c))) := by
  rw [execDiv, if_pos hd]

/-- Settles O34: the diagnostic goes in front of the log and nothing else changes. -/
theorem divNonPositiveOnlyLogs : Obligations.DivNonPositiveOnlyLogs := fun _ _ _ _ hd => execDiv_of_nonpos hd

end Sys2Proof.Machine
end

section
/-! The floating-point instructions as register writes, and the adder: its short-circuits, the value of its plain sum
and FLT (R86 to R89). -/

namespace Sys2Proof.Machine

/-! ### The results (R87, R89, R91, R92) -/

/-- Settles O35: each is one register write, of its unit's result. -/
theorem floatInstructionsWriteResult : Obligations.FloatInstructionsWriteResult := fun a _ _ _ _ s =>
  ⟨⟨_, rfl, reg_writeReg_same s a _, writeReg_frame ..⟩, ⟨_, rfl, reg_writeReg_same s a _, writeReg_frame ..⟩,
    ⟨_, rfl, reg_writeReg_same s a _, writeReg_frame ..⟩, ⟨_, rfl, reg_writeReg_same s a _, writeReg_frame ..⟩⟩

/-! ### Zero operands (R87) -/

section
variable {u : Bool} {x y : Word}

theorem floatAdd_left_zero (hx : x.toNat % 2 ^ 31 = 0) : floatAdd u false x y = if u then 0#32 else y := by
  rw [floatAdd, if_neg (by decide), if_pos ((floatIsZero_iff x).2 hx)]

theorem floatAdd_right_zero (hx : x.toNat % 2 ^ 31 ≠ 0) (hy : y.toNat % 2 ^ 31 = 0) : floatAdd u false x y = x := by
  rw [floatAdd, if_neg (by decide), if_neg (mt (floatIsZero_iff x).1 hx), if_pos ((floatIsZero_iff y).2 hy)]

/-- Without a zero operand the working sum is normalised and packed. -/
theorem floatAdd_nonzero (hx : x.toNat % 2 ^ 31 ≠ 0) (hy : y.toNat % 2 ^ 31 ≠ 0) :
    floatAdd u false x y = fadPack (fadSum u false x y) (fadNormal (fadSum u false x y) (fadExp u x y)).1
      (fadNormal (fadSum u false x y) (fadExp u x y)).2 := by
  rw [floatAdd, if_neg (by decide), if_neg (mt (floatIsZero_iff x).1 hx), if_neg (mt (floatIsZero_iff y).1 hy)]

end

/-- Settles O36: the adder tests the left operand first. -/
theorem floatAddZeroShortCircuits : Obligations.FloatAddZeroShortCircuits := fun _ _ _ =>
  ⟨floatAdd_left_zero, floatAdd_right_zero⟩

/-! ### The working sum (R87, steps 1 to 4) -/

/-- A mantissa that step 4 adds without loss: its sign is the operand's, and 25 bits hold its magnitude. -/
def SignedMantissa (neg : Bool) (m : Int) : Prop := m.natAbs < 2 ^ 25 ∧ (neg = true ↔ m < 0)

/-- Aligning a mantissa keeps its sign, since the shift floors, and does not raise its magnitude. -/
theorem SignedMantissa.shifted {neg : Bool} {m : Int} (h : SignedMantissa neg m) (d : Nat) :
    SignedMantissa neg (m / 2 ^ d) := by
  obtain ⟨hlt, hneg⟩ := h
  have hp : (0 : Int) < 2 ^ d := by positivity
  refine ⟨(Int.natAbs_ediv_le_natAbs m _).trans_lt hlt, hneg.trans ?_⟩
  rw [← Int.not_le, ← Int.not_le, Int.ediv_nonneg_iff_of_pos hp]

theorem signedMantissa_float (w : Word) : SignedMantissa (floatSign w) (signedMag (floatSign w) (2 * floatMant w)) := by
  have hmant := floatMant_bounds w
  unfold SignedMantissa signedMag
  cases floatSign w <;> simp <;> omega

/-- The working sum `n` stands for the integer `sum`: it is `sum` modulo 2^27, and rounding up does not overflow. -/
def StandsFor (n : Nat) (sum : Int) : Prop :=
  (n : Int) % 2 ^ 27 = sum % 2 ^ 27 ∧ n < 2 ^ 28 ∧ sum.natAbs + 1 < 2 ^ 26

/-- Step 4's sign bits make a term the mantissa modulo 2^27. -/
theorem fadTerm_of_signedMantissa {neg : Bool} {m : Int} (h : SignedMantissa neg m) :
    (fadTerm neg m : Int) = if m < 0 then 2 ^ 27 + m else m := by
  obtain ⟨hlt, hneg⟩ := h
  rw [fadTerm_eq (by simp only [hneg]; split <;> omega)]
  simp only [hneg]

theorem fadTerm_add_standsFor {neg neg' : Bool} {m m' : Int} (h : SignedMantissa neg m) (h' : SignedMantissa neg' m') :
    StandsFor (fadTerm neg m + fadTerm neg' m') (m + m') := by
  have hterm := fadTerm_of_signedMantissa h
  have hterm' := fadTerm_of_signedMantissa h'
  obtain ⟨hlt, -⟩ := h
  obtain ⟨hlt', -⟩ := h'
  refine ⟨?_, ?_, ?_⟩ <;> omega

/-! ### Rounding, normalising and packing (R87, steps 5 and 6) -/

section
variable {u : Bool} {x y : Word} {sum : Int} (hx : x.toNat % 2 ^ 31 ≠ 0) (hy : y.toNat % 2 ^ 31 ≠ 0)
  (hsum : StandsFor (fadSum u false x y) sum)
include hx hy hsum

/-- A sum of 0 rounds to an empty significand. -/
theorem floatAdd_of_sum_zero (h0 : sum = 0) : floatAdd u false x y = 0#32 := by
  obtain ⟨hmod, hlt, hmag⟩ := hsum
  have hround := fadRounded_eq hmod hlt (by omega)
  subst h0
  rw [floatAdd_nonzero hx hy, fadNormal, hround]
  rfl

variable {k : Nat} (hlow : 2 ^ 24 ≤ (sum.natAbs + 1) / 2 * 2 ^ k) (hhigh : (sum.natAbs + 1) / 2 * 2 ^ k < 2 ^ 25)
include hlow hhigh

/-- The half of the rounded magnitude, shifted up to bit 24, is what step 6 packs. -/
theorem floatAdd_of_normal :
    floatAdd u false x y =
      fadPack (fadSum u false x y) ((sum.natAbs + 1) / 2 * 2 ^ k) ((fadExp u x y : Int) + 1 - k) := by
  obtain ⟨hmod, hlt, hmag⟩ := hsum
  rw [floatAdd_nonzero hx hy,
    fadNormal_eq (fadExp u x y) (fadRounded_eq hmod hlt (by omega)) (by omega) hlow hhigh]

/-- A result exponent that an 8-bit field does not hold gives +0. -/
theorem floatAdd_flushes (hexp : fadExp u x y < 256) (he : fadExp u x y + 1 < k ∨ 256 + k ≤ fadExp u x y + 1) :
    floatAdd u false x y = 0#32 := by
  have hpos : 1 ≤ (sum.natAbs + 1) / 2 := by
    by_contra hzero
    have : (sum.natAbs + 1) / 2 = 0 := by omega
    rw [this] at hlow
    omega
  have hk : k < 25 := by
    by_contra hk
    have := Nat.mul_le_mul hpos (Nat.pow_le_pow_right (n := 2) (by decide) (Nat.not_lt.1 hk))
    omega
  rw [floatAdd_of_normal hx hy hsum hlow hhigh, fadPack_flushes (by omega)]

/-- Any other result has the sum's sign, its exponent and its shifted magnitude. -/
theorem floatAdd_fields (hlowExp : k ≤ fadExp u x y + 1) (hhighExp : fadExp u x y + 1 < 256 + k) :
    (floatSign (floatAdd u false x y) = true ↔ sum < 0) ∧ floatExp (floatAdd u false x y) + k = fadExp u x y + 1 ∧
    floatMant (floatAdd u false x y) = (sum.natAbs + 1) / 2 * 2 ^ k / 2 := by
  rw [floatAdd_of_normal hx hy hsum hlow hhigh]
  obtain ⟨hmod, -, hmag⟩ := hsum
  obtain ⟨hsign, hexp, hmant⟩ := fadPack_fields (sum := fadSum u false x y) (e := (fadExp u x y : Int) + 1 - k)
    hlow hhigh (by omega) (by omega)
  rw [hsign, fadSign_eq hmod (by omega), decide_eq_true_iff]
  exact ⟨Iff.rfl, by omega, hmant⟩

end

/-! ### The plain sum (R86, R87) -/

theorem fadMantX_plain (x : Word) : fadMantX false x = signedMag (floatSign x) (2 * floatMant x) := by
  rw [fadMantX, if_neg (by decide), floatMant]
  congr 1
  omega

theorem fadMantY_plain (y : Word) : fadMantY false false y = signedMag (floatSign y) (2 * floatMant y) := by
  rw [fadMantY, floatMant]
  congr 1
  simp only [Bool.not_false, Bool.and_self, if_true]
  omega

/-- Step 3 floors the extended mantissa of an operand of the plain sum. -/
theorem fadAlign_float (w : Word) (d : Nat) :
    fadAlign (signedMag (floatSign w) (2 * floatMant w)) d = signedMag (floatSign w) (2 * floatMant w) / 2 ^ d :=
  fadAlign_eq (signedMantissa_float w).1 d

theorem fadSum_plain_comm (x y : Word) : fadSum false false x y = fadSum false false y x := by
  simp only [fadSum, fadMantX_plain, fadMantY_plain]
  exact Nat.add_comm ..

theorem floatAdd_plain_comm {x y : Word} (h : x.toNat % 2 ^ 31 ≠ 0 ∨ y.toNat % 2 ^ 31 ≠ 0) :
    floatAdd false false x y = floatAdd false false y x := by
  by_cases hx : x.toNat % 2 ^ 31 = 0
  · have hy := h.resolve_left (not_not_intro hx)
    rw [floatAdd_left_zero hx, floatAdd_right_zero hy hx]
    rfl
  · by_cases hy : y.toNat % 2 ^ 31 = 0
    · rw [floatAdd_right_zero hx hy, floatAdd_left_zero hy]
      rfl
    · have hexp : fadExp false x y = fadExp false y x := Nat.max_comm ..
      rw [floatAdd_nonzero hx hy, floatAdd_nonzero hy hx, fadSum_plain_comm, hexp]

/-- The working sum of two floats, the larger exponent first. -/
theorem fadSum_plain_standsFor {x y : Word} (hle : floatExp y ≤ floatExp x) :
    StandsFor (fadSum false false x y) (signedMag (floatSign x) (2 * floatMant x) +
      signedMag (floatSign y) (2 * floatMant y) / 2 ^ (floatExp x - floatExp y)) := by
  have h := fadTerm_add_standsFor (signedMantissa_float x)
    ((signedMantissa_float y).shifted (floatExp x - floatExp y))
  have hexp : fadExpX false x = floatExp x := rfl
  rw [fadSum, hexp, fadMantX_plain, fadMantY_plain, fadAlign_float, fadAlign_float, Nat.sub_eq_zero_of_le hle, pow_zero,
    Int.ediv_one]
  exact h

theorem fadExp_plain {x y : Word} (hle : floatExp y ≤ floatExp x) : fadExp false x y = floatExp x :=
  Nat.max_eq_right hle

/-- Settles O37: the working sum stands for the sum of the aligned floats, which is then rounded and packed. -/
theorem floatAddCommutes : Obligations.FloatAddCommutes := by
  intro x y
  refine ⟨floatAdd_plain_comm, ?_⟩
  rintro sum m k hx hy hle hval rfl
  have hsum : StandsFor (fadSum false false x y) sum := hval ▸ fadSum_plain_standsFor hle
  have hexp := fadExp_plain hle
  have hlt := floatExp_lt x
  refine ⟨?_, fun hm => floatAdd_of_sum_zero hx hy hsum (by omega), fun hlow hhigh => ⟨fun he => ?_, fun hk hk' => ?_⟩⟩
  · obtain ⟨-, -, hmag⟩ := hsum
    omega
  · exact floatAdd_flushes hx hy hsum hlow hhigh (by omega) (by omega)
  · rw [← hexp] at hk hk' ⊢
    exact floatAdd_fields hx hy hsum hlow hhigh hk hk'

/-! ### Cancellation (R87, R89) -/

theorem signedMag_not (neg : Bool) (m : Nat) : signedMag (!neg) m = -signedMag neg m := by
  cases neg <;> simp [signedMag]

section
variable (x : Word)

theorem floatSign_negated : floatSign (x ^^^ 0x80000000#32) = !floatSign x := by
  simp [floatSign]

theorem floatExp_negated : floatExp (x ^^^ 0x80000000#32) = floatExp x := by
  rw [floatExp, BitVec.extractLsb'_xor]
  simp [floatExp]

theorem floatMant_negated : floatMant (x ^^^ 0x80000000#32) = floatMant x := by
  rw [floatMant, floatFrac, BitVec.extractLsb'_xor]
  simp [floatMant, floatFrac]

theorem negated_magnitude : (x ^^^ 0x80000000#32).toNat % 2 ^ 31 = x.toNat % 2 ^ 31 := by
  rw [BitVec.toNat_xor, Nat.xor_mod_two_pow]
  simp

end

/-- The aligned sum of a float and its negation is 0. -/
theorem floatAdd_negated {x : Word} (hx : x.toNat % 2 ^ 31 ≠ 0) :
    floatAdd false false x (x ^^^ 0x80000000#32) = 0#32 := by
  have hsum := fadSum_plain_standsFor (floatExp_negated x).le
  rw [floatExp_negated, floatMant_negated, floatSign_negated, signedMag_not, Nat.sub_self, pow_zero, Int.ediv_one,
    Int.add_right_neg] at hsum
  exact floatAdd_of_sum_zero hx ((negated_magnitude x).trans_ne hx) hsum rfl

/-- Settles O38: FSB flips the sign of its right operand, so both sums are the same. -/
theorem floatCancellationIsZero : Obligations.FloatCancellationIsZero := fun _ hx =>
  ⟨floatAdd_negated hx, floatAdd_negated hx⟩

/-! ### FLT (R88) -/

/-- A positive number below 2^24 reaches bit 23 by shifts. -/
theorem exists_shift_to_bit23 {m : Nat} (hpos : m ≠ 0) (hlt : m < 2 ^ 24) :
    ∃ k ≤ 23, 2 ^ 23 ≤ m * 2 ^ k ∧ m * 2 ^ k < 2 ^ 24 := by
  have hlog : Nat.log 2 m < 24 := Nat.log_lt_of_lt_pow hpos hlt
  have hsplit : 2 ^ Nat.log 2 m * 2 ^ (23 - Nat.log 2 m) = 2 ^ 23 := by rw [← Nat.pow_add]; congr 1; omega
  refine ⟨23 - Nat.log 2 m, by omega, ?_, ?_⟩
  · calc 2 ^ 23 = 2 ^ Nat.log 2 m * 2 ^ (23 - Nat.log 2 m) := hsplit.symm
      _ ≤ m * 2 ^ (23 - Nat.log 2 m) := Nat.mul_le_mul_right _ (Nat.pow_log_le_self 2 hpos)
  · calc m * 2 ^ (23 - Nat.log 2 m) < 2 ^ (Nat.log 2 m + 1) * 2 ^ (23 - Nat.log 2 m) :=
          Nat.mul_lt_mul_of_pos_right (Nat.lt_pow_succ_log_self (by decide) m) (by positivity)
      _ = 2 ^ 24 := by rw [Nat.pow_succ, Nat.mul_right_comm, hsplit]; rfl

theorem signedMag_mul (neg : Bool) (m j : Nat) : signedMag neg (m * j) = signedMag neg m * j := by
  cases neg <;> simp [signedMag]

theorem signedMag_natAbs {neg : Bool} {n : Int} (h : neg = true ↔ n < 0) : signedMag neg n.natAbs = n := by
  simp only [signedMag, h]
  split <;> omega

section
variable {n : Int} (hlow : -(2 ^ 23) ≤ n) (hhigh : n < 2 ^ 23)
include hlow hhigh

theorem floatSign_ofInt : floatSign (BitVec.ofInt 32 n) = decide (n < 0) := by
  rw [Bool.eq_iff_iff, decide_eq_true_iff]
  exact (negativeFlag_iff _).trans (by rw [BitVec.toInt_ofInt_eq_self (by decide) (by omega) (by omega)])

theorem fadMantX_ofInt : fadMantX true (BitVec.ofInt 32 n) = 2 * n := by
  have h : (BitVec.ofInt 32 n).extractLsb' 0 24 = BitVec.ofInt 24 n := by
    apply BitVec.eq_of_toNat_eq
    rw [BitVec.extractLsb'_toNat, BitVec.toNat_ofInt, BitVec.toNat_ofInt]
    simp only [Nat.shiftRight_zero]
    omega
  rw [fadMantX, if_pos rfl, h, BitVec.toInt_ofInt_eq_self (by decide) (by omega) (by omega), Int.mul_comm]

theorem ofInt_magnitude (h0 : n ≠ 0) : (BitVec.ofInt 32 n).toNat % 2 ^ 31 ≠ 0 := by
  rw [BitVec.toNat_ofInt]
  omega

/-- The constant adds its exponent and nothing else: the working sum is the integer, doubled. -/
theorem fadSum_flt_standsFor : StandsFor (fadSum true false (BitVec.ofInt 32 n) 0x4B000000#32) (2 * n) := by
  have hx : SignedMantissa (floatSign (BitVec.ofInt 32 n)) (2 * n) := by
    rw [floatSign_ofInt hlow hhigh, SignedMantissa, decide_eq_true_iff]
    omega
  have hy : SignedMantissa (floatSign 0x4B000000#32) 0 := by unfold SignedMantissa; decide
  have h := fadTerm_add_standsFor hx hy
  have halign : fadAlign (2 * n) 0 = 2 * n := by rw [fadAlign_eq hx.1, pow_zero, Int.ediv_one]
  have hexp : floatExp 0x4B000000#32 = 150 := by decide
  have hmant : fadAlign (fadMantY true false 0x4B000000#32) 0 = 0 := by decide
  rw [fadSum, fadMantX_ofInt hlow hhigh, fadExpX, if_pos rfl, hexp, Nat.sub_self, halign, hmant]
  rwa [Int.add_zero] at h

/-- The float of a non-zero integer: `k` brings the integer's magnitude to bit 24, one above the significand's top. -/
theorem floatAdd_flt_isInt (h0 : n ≠ 0) :
    FloatIsInt (floatAdd true false (BitVec.ofInt 32 n) 0x4B000000#32) n := by
  have hsum := fadSum_flt_standsFor hlow hhigh
  have hexp : fadExp true (BitVec.ofInt 32 n) 0x4B000000#32 = 150 := by
    rw [fadExp, fadExpX, if_pos rfl]; decide
  have hround : ((2 * n).natAbs + 1) / 2 = n.natAbs := by omega
  obtain ⟨k, hk, hlowMant, hhighMant⟩ : ∃ k ≤ 23, 2 ^ 23 ≤ n.natAbs * 2 ^ k ∧ n.natAbs * 2 ^ k < 2 ^ 24 :=
    exists_shift_to_bit23 (by omega) (by omega)
  have hshift : n.natAbs * 2 ^ (k + 1) = 2 * (n.natAbs * 2 ^ k) := by rw [Nat.pow_succ]; ring
  obtain ⟨hsign, hfield, hmant⟩ := floatAdd_fields (k := k + 1) (ofInt_magnitude hlow hhigh h0) (by decide) hsum
    (by rw [hround]; omega) (by rw [hround]; omega) (by omega) (by omega)
  rw [hround, hshift, Nat.mul_div_cancel_left _ (by decide)] at hmant
  rw [hexp] at hfield
  have hexponent : 150 - floatExp (floatAdd true false (BitVec.ofInt 32 n) 0x4B000000#32) = k := by omega
  refine ⟨by omega, by omega, ?_⟩
  rw [hexponent, hmant, signedMag_mul, signedMag_natAbs (hsign.trans (by omega)), Nat.cast_pow, Nat.cast_ofNat]

end

/-- Settles O39: an integer of 0 is a zero operand, any other is converted through the working sum `2 * n`. -/
theorem fltConvertsExactly : Obligations.FltConvertsExactly := by
  intro a b k s n hk hlow hhigh hb
  refine ⟨_, rfl, ?_, ?_⟩ <;> rw [reg_writeReg_same, State.operand, hk, hb]
  · rintro rfl
    exact floatAdd_left_zero rfl
  · exact floatAdd_flt_isInt hlow hhigh

end Sys2Proof.Machine
end

section
/-! FML and FDV in numbers: rounding to nearest, saturation and flushing (R90 to R92). -/

namespace Sys2Proof.Machine

/-! ### Rounding (R90) -/

/-- `w` is the packed float of a rounded significand `r` with the exponent `e` it has after rounding: saturated from an
exponent of 256 up, +0 from 0 down, and else made of these fields. -/
def Packs (w : Word) (sign : Bool) (e : Int) (r : Nat) : Prop :=
  (256 ≤ e → w.toNat % 2 ^ 31 = 0x7FFFFFFF) ∧ (e ≤ 0 → w = 0#32) ∧ (1 ≤ e → floatSign w = sign) ∧
  (1 ≤ e → e ≤ 255 → (floatExp w : Int) = e ∧ floatMant w = r)

/-- The three ranges of the exponent. A saturated result has the sign too. -/
theorem packs_of_ranges {w : Word} {sign : Bool} {e : Int} {r : Nat} (hsat : 256 ≤ e → w = floatSaturated sign)
    (hzero : e ≤ 0 → w = 0#32)
    (hfields : 1 ≤ e ∧ e ≤ 255 → floatSign w = sign ∧ (floatExp w : Int) = e ∧ floatMant w = r) :
    Packs w sign e r := by
  obtain ⟨hmax, hsign⟩ := floatSaturated_fields sign
  refine ⟨fun h => ?_, hzero, fun h => ?_, fun h h' => (hfields ⟨h, h'⟩).2⟩
  · rwa [hsat h]
  · rcases Int.lt_or_le e 256 with h' | h'
    · exact (hfields ⟨h, by omega⟩).1
    · rwa [hsat h']

/-- A significand that rounding kept within 24 bits. -/
theorem floatPack_packs (sign : Bool) (e : Int) {r : Nat} (hlow : 2 ^ 23 ≤ r) (hhigh : r < 2 ^ 24) :
    Packs (floatPack sign e r) sign e r :=
  packs_of_ranges (fun h => floatPack_saturates sign (.inl h)) (fun h => floatPack_flushes sign (.inr ⟨h, by omega⟩))
    (fun h => floatPack_fields sign h ⟨hlow, hhigh⟩)

/-- A significand that rounding carried to 2^24. -/
theorem floatPack_carry_packs (sign : Bool) (e : Int) : Packs (floatPack sign e (2 ^ 24)) sign (e + 1) (2 ^ 23) :=
  packs_of_ranges (fun h => floatPack_saturates sign (.inr ⟨by omega, rfl⟩))
    (fun h => floatPack_flushes sign (.inl (by omega))) (fun h => floatPack_carry sign ⟨by omega, by omega⟩)

/-- `r * d` is the multiple of `d` nearest to `n`, the upper one of two (R90). -/
def NearestMultiple (n d r : Nat) : Prop := 2 * (r * d) ≤ 2 * n + d ∧ 2 * n < 2 * (r * d) + d

/-! ### FML (R91) -/

/-- The product of two significands; the upper bound is the square of the largest. -/
theorem floatMant_mul_bounds (x y : Word) :
    2 ^ 46 ≤ floatMant x * floatMant y ∧ floatMant x * floatMant y ≤ (2 ^ 24 - 1) * (2 ^ 24 - 1) := by
  obtain ⟨hx, hx'⟩ := floatMant_bounds x
  obtain ⟨hy, hy'⟩ := floatMant_bounds y
  exact ⟨Nat.mul_le_mul (n₁ := 2 ^ 23) (m₁ := 2 ^ 23) hx hy, Nat.mul_le_mul (by omega) (by omega)⟩

/-- A product that rounds to 2^47 or more keeps 24 bits below the significand and has the larger exponent, whether it
is 2^47 already or becomes so by the rounding carry. Any other keeps 23 bits. -/
theorem mulPack_packs (sign : Bool) (xe ye : Nat) {m k : Nat} (hk : k = if 2 ^ 47 ≤ m + 2 ^ 22 then 24 else 23)
    (hlow : 2 ^ 46 ≤ m) (hhigh : m ≤ (2 ^ 24 - 1) * (2 ^ 24 - 1)) :
    ∃ r, Packs (mulPack sign xe ye m) sign ((xe : Int) + ye + k - 150) r ∧ NearestMultiple m (2 ^ k) r := by
  unfold NearestMultiple mulPack
  by_cases hupper : 2 ^ 47 ≤ m + 2 ^ 22
  · obtain rfl := hk.trans (if_pos hupper)
    split
    · have hexp : (xe : Int) + ye + (24 : Nat) - 150 = xe + ye - 126 := by omega
      rw [hexp]
      exact ⟨_, floatPack_packs sign _ (by omega) (by omega), by omega, by omega⟩
    · have hexp : (xe : Int) + ye + (24 : Nat) - 150 = xe + ye - 127 + 1 := by omega
      have hcarry : (m + 2 ^ 22) / 2 ^ 23 = 2 ^ 24 := by omega
      rw [hexp, hcarry]
      exact ⟨_, floatPack_carry_packs sign _, by omega, by omega⟩
  · obtain rfl := hk.trans (if_neg hupper)
    have hexp : (xe : Int) + ye + (23 : Nat) - 150 = xe + ye - 127 := by omega
    rw [if_neg (by omega), hexp]
    exact ⟨_, floatPack_packs sign _ (by omega) (by omega), by omega, by omega⟩

/-- Settles O41: `k`, the bits that the product keeps below the significand, decides the result exponent. -/
theorem floatMulRounds : Obligations.FloatMulRounds := by
  intro x y
  refine ⟨fun h => if_pos h, ?_⟩
  rintro e m hx hy rfl rfl
  have hmul : floatMul x y = _ := if_neg (not_or.2 ⟨hx, hy⟩)
  obtain ⟨hlow, hhigh⟩ := floatMant_mul_bounds x y
  generalize floatMant x * floatMant y = m at *
  obtain ⟨k, hk⟩ : ∃ k, k = if 2 ^ 47 ≤ m + 2 ^ 22 then 24 else 23 := exists_eq
  have hcase : 2 ^ 47 ≤ m + 2 ^ 22 ∧ k = 24 ∨ m + 2 ^ 22 < 2 ^ 47 ∧ k = 23 := by split at hk <;> omega
  obtain ⟨r, ⟨hsat, hzero, hsign, hfields⟩, hnear⟩ := mulPack_packs _ (floatExp x) (floatExp y) hk hlow hhigh
  rw [← hmul] at hsat hzero hsign hfields
  refine ⟨fun h => hsat (by omega), fun h => hzero (by omega), fun h => ⟨hsign (by omega), fun h' => ?_⟩⟩
  obtain ⟨hexp, rfl⟩ := hfields (by omega) (by omega)
  exact ⟨k, hk, by omega, hnear⟩

/-! ### FDV (R92) -/

section
variable {n d : Nat} (hd : 0 < d)
include hd

theorem nearestMultiple_half_up : NearestMultiple n d ((2 * n + d) / (2 * d)) := by
  have hle := Nat.div_mul_le_self (2 * n + d) (2 * d)
  have hlt := Nat.lt_div_mul_add (a := 2 * n + d) (b := 2 * d) (by omega)
  rw [Nat.mul_left_comm] at hle hlt
  exact ⟨hle, by omega⟩

/-- Rounding a quotient that was floored at a finer unit: the first floor loses nothing. -/
theorem nearestMultiple_of_quotient {h : Nat} (hh : 0 < h) : NearestMultiple n d ((n * (2 * h) / d + h) / (2 * h)) := by
  have hround : (n * (2 * h) / d + h) / (2 * h) = (2 * n + d) / (2 * d) :=
    calc (n * (2 * h) / d + h) / (2 * h) = (n * (2 * h) + h * d) / (d * (2 * h)) := by
          rw [← Nat.add_mul_div_right _ _ hd, Nat.div_div_eq_div_mul]
      _ = h * (2 * n + d) / (h * (2 * d)) := by congr 1 <;> ring
      _ = (2 * n + d) / (2 * d) := Nat.mul_div_mul_left _ _ hh
  exact hround ▸ nearestMultiple_half_up hd

end

/-- With the dividend's significand at least the divisor's, the rounded quotient has 23 bits below its leading 1 and the
larger exponent, else it has 24 of the dividend's; rounding carries in neither case. -/
theorem divPack_packs (sign : Bool) (xe ye : Nat) {m d k : Nat} (hk : k = if d ≤ m then 23 else 24)
    (hm : 2 ^ 23 ≤ m ∧ m < 2 ^ 24) (hd : 2 ^ 23 ≤ d ∧ d < 2 ^ 24) :
    ∃ r, Packs (divPack sign xe ye (m * 2 ^ 25 / d)) sign ((xe : Int) - ye + 150 - k) r ∧
      NearestMultiple (m * 2 ^ k) d r := by
  have hpos : 0 < d := by omega
  unfold divPack
  by_cases hle : d ≤ m
  · obtain rfl := hk.trans (if_pos hle)
    have hlow : 2 ^ 25 ≤ m * 2 ^ 25 / d := (Nat.le_div_iff_mul_le hpos).2 (by omega)
    have hhigh : m * 2 ^ 25 / d < 2 ^ 26 - 2 := (Nat.div_lt_iff_lt_mul hpos).2 (by omega)
    have hexp : (xe : Int) - ye + 150 - (23 : Nat) = xe - ye + 127 := by omega
    have hscale : m * 2 ^ 25 = m * 2 ^ 23 * (2 * 2) := by ring
    rw [if_pos hlow, hexp]
    refine ⟨_, floatPack_packs sign _ (by omega) (by omega), ?_⟩
    rw [hscale]
    exact nearestMultiple_of_quotient hpos (by decide)
  · obtain rfl := hk.trans (if_neg hle)
    have hlow : 2 ^ 24 ≤ m * 2 ^ 25 / d := (Nat.le_div_iff_mul_le hpos).2 (by omega)
    have hhigh : m * 2 ^ 25 / d < 2 ^ 25 - 1 := (Nat.div_lt_iff_lt_mul hpos).2 (by omega)
    have hexp : (xe : Int) - ye + 150 - (24 : Nat) = xe - ye + 126 := by omega
    have hscale : m * 2 ^ 25 = m * 2 ^ 24 * (2 * 1) := by ring
    rw [if_neg (by omega), hexp]
    refine ⟨_, floatPack_packs sign _ (by omega) (by omega), ?_⟩
    rw [hscale]
    exact nearestMultiple_of_quotient hpos (by decide)

/-- The largest magnitude as a number; its sign is the exclusive-or of two. -/
theorem floatSaturated_xor_toNat (s s' : Bool) :
    (floatSaturated (s.xor s')).toNat = (if s = s' then 0 else 2 ^ 31) + 0x7FFFFFFF := by
  cases s <;> cases s' <;> decide

/-- Settles O42: `k`, the bits by which the dividend is scaled up, decides the result exponent. -/
theorem floatDivRounds : Obligations.FloatDivRounds := by
  intro x y
  refine ⟨fun hx => if_pos hx, fun hx hy => ?_, ?_⟩
  · rw [floatDiv, if_neg hx, if_pos hy]
    exact floatSaturated_xor_toNat ..
  · rintro e hx hy rfl
    have hdiv : floatDiv x y = _ := (if_neg hx).trans (if_neg hy)
    obtain ⟨k, hk⟩ : ∃ k, k = if floatMant y ≤ floatMant x then 23 else 24 := exists_eq
    have hcase : floatMant y ≤ floatMant x ∧ k = 23 ∨ floatMant x < floatMant y ∧ k = 24 := by split at hk <;> omega
    obtain ⟨r, ⟨hsat, hzero, hsign, hfields⟩, hnear⟩ :=
      divPack_packs _ (floatExp x) (floatExp y) hk (floatMant_bounds x) (floatMant_bounds y)
    rw [← hdiv] at hsat hzero hsign hfields
    refine ⟨fun h => hsat (by omega), fun h => hzero (by omega), fun h => ⟨hsign (by omega), fun h' => ?_⟩⟩
    obtain ⟨hexp, rfl⟩ := hfields (by omega) (by omega)
    exact ⟨k, hk, by omega, hnear⟩

end Sys2Proof.Machine
end

section
/-! The branches (R63, R100 to R106): what each answers taken and not taken, and the link and the targets in numbers. -/

namespace Sys2Proof.Machine

/-! ### The conditions (R63, R100) -/

section
variable (s : State)

theorem takes_mi_iff : s.takes false .mi = true ↔ s.flagN = true := by simp [State.takes, condTest]

theorem takes_vs_iff : s.takes false .vs = true ↔ s.flagV = true := by simp [State.takes, condTest]

theorem takes_always : s.takes false .always = true := rfl

end

/-! ### The answers of the four branches -/

section
variable {s : State} {inv : Bool} {cond : Cond}

theorem exec_bOff_of_taken (h : s.takes inv cond = true) (off : BitVec 24) :
    exec (.bOff inv cond off) s = .next (s.setPc (s.relativeTarget off)) :=
  congrArg Host.Outcome.next (if_pos h)

theorem exec_bReg_of_taken (h : s.takes inv cond = true) (c : Reg) :
    exec (.bReg inv cond c) s = .next (s.setPc (s.registerTarget c)) :=
  congrArg Host.Outcome.next (if_pos h)

theorem exec_blOff_of_taken (h : s.takes inv cond = true) (off : BitVec 24) :
    exec (.blOff inv cond off) s = .next (s.writeLink.setPc (s.writeLink.relativeTarget off)) :=
  congrArg Host.Outcome.next (if_pos h)

theorem exec_blReg_of_taken (h : s.takes inv cond = true) (c : Reg) :
    exec (.blReg inv cond c) s = .next (s.writeLink.setPc (s.writeLink.registerTarget c)) :=
  congrArg Host.Outcome.next (if_pos h)

/-- A branch that is not taken answers the same state, with or without a link (R100). -/
theorem exec_branch_of_not_taken (h : ¬ s.takes inv cond = true) (c : Reg) (off : BitVec 24) :
    exec (.bReg inv cond c) s = .next s ∧ exec (.blReg inv cond c) s = .next s ∧
    exec (.bOff inv cond off) s = .next s ∧ exec (.blOff inv cond off) s = .next s :=
  have hsame (t : State) : Host.Outcome.next (if s.takes inv cond = true then t else s) = .next s :=
    congrArg Host.Outcome.next (if_neg h)
  ⟨hsame _, hsame _, hsame _, hsame _⟩

end

/-- Settles O55: each selector is its flag test, and the inverted one its negation. -/
theorem branchConditions : Obligations.BranchConditions := fun s _ cond c off =>
  ⟨takes_mi_iff s, takes_eq_iff s, takes_cs_iff s, takes_vs_iff s, takes_ls_iff s, takes_lt_iff s, takes_le_iff s,
    takes_always s, takes_inverted_iff s cond, fun h => exec_branch_of_not_taken h c off⟩

/-! ### The link and the targets in numbers (R101, R103, R105) -/

section
variable (s : State)

theorem relativeTarget_toNat (off : BitVec 24) :
    ((s.relativeTarget off).toNat : Int) = (s.pc.toNat + off.toInt) % 2 ^ 32 :=
  add_signExtend_toNat s.pc off

theorem registerTarget_toNat (c : Reg) : (s.registerTarget c).toNat = (s.reg c).toNat / 4 := by
  rw [State.registerTarget, BitVec.toNat_ushiftRight, Nat.shiftRight_eq_div_pow]

theorem linkValue_toNat : s.linkValue.toNat = 4 * s.pc.toNat % 2 ^ 32 := by
  rw [State.linkValue, BitVec.toNat_mul, Nat.mul_comm, BitVec.toNat_ofNat]

/-- The link write is done when the target register is read, so R15 gives the link (R101, R106). -/
theorem writeLink_registerTarget_toNat (c : Reg) : (s.writeLink.registerTarget c).toNat =
    if c = 15#4 then (4 * s.pc.toNat % 2 ^ 32) / 4 else (s.reg c).toNat / 4 := by
  rw [registerTarget_toNat, reg_writeLink, apply_ite BitVec.toNat, linkValue_toNat, apply_ite (· / 4), linkReg]

end

/-- Settles O57: taken, the pc becomes the target; not taken, the state stays. -/
theorem branchResults : Obligations.BranchResults := by
  intro inv cond off c s
  by_cases h : s.takes inv cond = true
  · exact ⟨⟨_, exec_bOff_of_taken h off, rfl, fun _ => relativeTarget_toNat s off, absurd h⟩,
      ⟨_, exec_bReg_of_taken h c, rfl, fun _ => registerTarget_toNat s c, absurd h⟩⟩
  · obtain ⟨hreg, -, hoff, -⟩ := exec_branch_of_not_taken h c off
    exact ⟨⟨s, hoff, rfl, fun h' => absurd h' h, fun _ => rfl⟩, ⟨s, hreg, rfl, fun h' => absurd h' h, fun _ => rfl⟩⟩

/-- A call to any target leaves the link in x[15], `Z` and `N` describing it, and all else but the pc (R101). -/
theorem call_frame {s w : State} {target : Word} (hw : w = s.writeLink.setPc target) :
    (w.reg 15#4).toNat = 4 * s.pc.toNat % 2 ^ 32 ∧ OtherRegsSame s w 15#4 ∧ SignZeroOf w (w.reg 15#4) ∧ SameCV s w ∧
    w.h = s.h ∧ SameMemory s w ∧ SameDevices s w := by
  subst hw
  obtain ⟨hother, hsign, -, hmemory, hdevices⟩ := writeReg_registerWrite s linkReg s.linkValue
  have hlink : s.writeLink.reg linkReg = s.linkValue := reg_writeReg_same s linkReg s.linkValue
  exact ⟨(congrArg BitVec.toNat hlink).trans (linkValue_toNat s), hother, hsign, ⟨rfl, rfl⟩, rfl, hmemory, hdevices⟩

/-- Settles O58: both calls have the frame of the link write, and differ in the target. -/
theorem branchLinkResults : Obligations.BranchLinkResults := by
  intro inv cond off c s
  by_cases h : s.takes inv cond = true
  · refine ⟨_, _, exec_blOff_of_taken h off, exec_blReg_of_taken h c, fun _ => ?_, absurd h⟩
    exact ⟨relativeTarget_toNat s.writeLink off, writeLink_registerTarget_toNat s c,
      fun _ hw => hw.elim call_frame call_frame⟩
  · obtain ⟨-, hreg, -, hoff⟩ := exec_branch_of_not_taken h c off
    exact ⟨s, s, hoff, hreg, fun h' => absurd h' h, fun _ => ⟨rfl, rfl⟩⟩

/-- Settles O59: the link is four times the pc, which does not wrap below 2^30, and the return divides it by four. -/
theorem returnUndoesCall : Obligations.ReturnUndoesCall := by
  intro off s t u hpc hcall hreturn
  cases (exec_blOff_of_taken (takes_always s) off).symm.trans hcall
  cases (exec_bReg_of_taken (takes_always _) 15#4).symm.trans hreturn
  have hlink : (s.writeLink.registerTarget 15#4).toNat = 4 * s.pc.toNat % 2 ^ 32 / 4 :=
    writeLink_registerTarget_toNat s 15#4
  exact BitVec.eq_of_toNat_eq (hlink.trans (by omega))

end Sys2Proof.Machine
end

section
/-! The two events of a step (R109 to R111, R114). -/

namespace Sys2Proof.Machine

/-- A failed fetch makes the step an invalid-fetch reset, with no instruction executed (R111). -/
theorem step_of_invalid_fetch {s : State} (h : s.fetch = none) : step s = .next s.takeInvalidFetch := by
  rw [step, h]

/-- Settles O7: the reset emits its record and moves the pc. -/
theorem invalidFetchResetsPcOnly : Obligations.InvalidFetchResetsPcOnly := fun _ h => step_of_invalid_fetch h

@[simp] theorem loadWord_log (s : State) (a : Word) : (s.loadWord a).1.log = s.log :=
  readEffect_keeps (loadWord_effect s a) State.log fun _ _ _ _ => rfl

@[simp] theorem mmioWrite_log (s : State) (a v : Word) : (s.mmioWrite a v).log = s.log :=
  writeEffect_keeps (mmioWrite_effect s a v) State.log fun _ _ _ => rfl

/-- Only the diagnostic of a DIV reaches the log, with the index before the pc's increment (R110). -/
theorem effect_log {s t : State} (h : Effect s t) :
    t.log = s.log ∨ ∃ d : Word, d.toInt ≤ 0 ∧ t.log = .divNonPositive (s.pc - 1#32) d :: s.log := by
  cases h with
  | diagnose d hd => exact .inr ⟨d, hd, rfl⟩
  | load ea => exact .inl (loadWord_log s ea)
  | storeMmio ea v => exact .inl (mmioWrite_log s ea v)
  | write | arith | aux | storeRam | jump | call | nothing => exact .inl rfl

/-- Settles O22: a failed fetch logs itself, and the update of a fetched instruction at most a DIV event. -/
theorem atMostOneEventPerStep : Obligations.AtMostOneEventPerStep := by
  intro s t h
  rcases step_next_cases h with ⟨hfetch, rfl⟩ | ⟨ir, hfetch, hexec⟩
  · exact .inl ⟨hfetch, takeInvalidFetch_log s⟩
  · have hlog := effect_log (exec_updates hexec)
    rw [setPc_log, setPc_pc, BitVec.add_sub_cancel] at hlog
    exact .inr ⟨by rw [hfetch]; exact Option.some_ne_none ir, hlog⟩

end Sys2Proof.Machine
end

section
/-! Word accesses to the MMIO registers (R120 to R131). -/

namespace Sys2Proof.Machine

open Config (DevicePort)

/-! ### The register window (R120) -/

/-- The offset of each register from `IO_START` (R120). -/
def MmioReg.offset : MmioReg → Nat
  | .timer => 0
  | .switchesLeds => 4
  | .serialData => 8
  | .serialStatus => 12
  | .spiData => 16
  | .spiControl => 20
  | .mouse => 24
  | .keyboard => 28
  | .clipboardControl => 40
  | .clipboardData => 44

theorem mmioRegAt_offset (r : MmioReg) : mmioRegAt r.offset = some r := by cases r <;> rfl

/-- Offsets are matched exactly (R121). -/
theorem mmioRegAt_eq_some {off : Nat} {r : MmioReg} : mmioRegAt off = some r ↔ off = r.offset := by
  constructor
  · unfold mmioRegAt
    split_ifs <;> rintro ⟨⟩ <;> assumption
  · rintro rfl
    exact mmioRegAt_offset r

theorem mmioSelect_at {p : Config.Params} {a : Word} {k : Nat} (ha : a.toNat = p.ioStart + k) :
    mmioSelect p a = mmioRegAt k := by
  rw [mmioSelect, ha, Nat.add_sub_cancel_left]

/-! ### What each read answers (R123 to R129) -/

section
variable {s : State}

theorem readMouse_of_no_key (h : s.keys = []) : s.readMouse = (s.decProgress, s.mouse) := by
  rw [State.readMouse, h]
  rfl

theorem readMouse_of_key (h : s.keys ≠ []) : s.readMouse = (s, s.mouse ||| 0x10000000#32) :=
  if_neg (by rwa [List.isEmpty_iff])

theorem readKeyboard_of_no_key (h : s.keys = []) : s.readKeyboard = (s, 0#32) := by
  rw [State.readKeyboard, h]

theorem readKeyboard_of_key {x : Byte} {rest : List Byte} (h : s.keys = x :: rest) :
    s.readKeyboard = ({ s with keys := rest }, x.setWidth 32) := by
  rw [State.readKeyboard, h]

theorem deviceRead_of_attached {port : DevicePort} (h : s.attached port = true) : s.deviceRead port =
    ({ s with deviceCalls := .read port (s.oracle port) :: s.deviceCalls, deviceTick := s.deviceTick + 1 },
      s.oracle port) :=
  if_pos h

theorem deviceRead_of_absent {port : DevicePort} (h : s.attached port = false) :
    s.deviceRead port = (s, absentAnswer port) :=
  if_neg (by rw [h]; decide)

end

/-! ### LDW and STW in the window, by offset (R96, R98, R121, R122) -/

section
variable {a b : Reg} {off : BitVec 20} {s : State} (hp : s.params.wf)
include hp

theorem exec_ldw_mmio (hio : s.params.ioStart ≤ (s.effectiveAddress b off).toNat) :
    exec (.ldw a b off) s = .next (writeLoaded a (s.mmioRead (s.effectiveAddress b off))) := by
  rw [exec, execLdw, State.loadWord, regionOf_mmio_of_wf hp hio]

theorem exec_stw_mmio (hio : s.params.ioStart ≤ (s.effectiveAddress b off).toNat) :
    exec (.stw a b off) s = .next (s.mmioWrite (s.effectiveAddress b off) (s.reg a)) := by
  rw [exec, execStw, State.storeWord, regionOf_mmio_of_wf hp hio]

/-- LDW at a register's offset reads that register. -/
theorem exec_ldw_register (r : MmioReg) (ha : (s.effectiveAddress b off).toNat = s.params.ioStart + r.offset) :
    exec (.ldw a b off) s = .next (writeLoaded a (s.mmioReadReg r)) := by
  rw [exec_ldw_mmio hp (by omega), State.mmioRead, mmioSelect_at ha, mmioRegAt_offset]

/-- STW at a register's offset writes that register. -/
theorem exec_stw_register (r : MmioReg) (ha : (s.effectiveAddress b off).toNat = s.params.ioStart + r.offset) :
    exec (.stw a b off) s = .next (s.mmioWriteReg (s.reg a) r) := by
  rw [exec_stw_mmio hp (by omega), State.mmioWrite, mmioSelect_at ha, mmioRegAt_offset]

variable {k : Nat} (ha : (s.effectiveAddress b off).toNat = s.params.ioStart + k)
include ha

/-- LDW at an offset of no register reads 0 with no side effect (R121). -/
theorem exec_ldw_unmatched (hk : ∀ r : MmioReg, k ≠ r.offset) :
    exec (.ldw a b off) s = .next (s.writeReg a 0#32) := by
  have hnone : mmioRegAt k = none := Option.eq_none_iff_forall_ne_some.2 fun r hr => hk r (mmioRegAt_eq_some.1 hr)
  rw [exec_ldw_mmio hp (by omega), State.mmioRead, mmioSelect_at ha, hnone]
  rfl

/-- STW changes nothing where the register, if there is one, ignores writes (R120, R122). -/
theorem exec_stw_ignored (hk : ∀ r : MmioReg, k = r.offset → s.mmioWriteReg (s.reg a) r = s) :
    exec (.stw a b off) s = .next s := by
  rw [exec_stw_mmio hp (by omega), State.mmioWrite, mmioSelect_at ha]
  split
  · next r hr => rw [hk r (mmioRegAt_eq_some.1 hr)]
  · rfl

end

/-! ### The registers inside the bus (R121, R123, R124, R126 to R128) -/

/-- Settles O50: each register's read, written to the destination in the state the read left. -/
theorem mmioWordLoads : Obligations.MmioWordLoads := by
  intro a b off s k hp ha
  refine ⟨?timer, ?switches, ?spiControl, ?mouseNoKey, ?mouseKey, ?keyboardEmpty, ?keyboardPop, ?unmatched⟩
  case timer => rintro rfl; exact exec_ldw_register hp .timer ha
  case switches => rintro rfl; exact exec_ldw_register hp .switchesLeds ha
  case spiControl => rintro rfl; exact exec_ldw_register hp .spiControl ha
  case mouseNoKey =>
    rintro rfl hkeys
    rw [exec_ldw_register hp .mouse ha, State.mmioReadReg, readMouse_of_no_key hkeys]
    rfl
  case mouseKey =>
    rintro rfl hkeys
    rw [exec_ldw_register hp .mouse ha, State.mmioReadReg, readMouse_of_key hkeys]
    rfl
  case keyboardEmpty =>
    rintro rfl hkeys
    rw [exec_ldw_register hp .keyboard ha, State.mmioReadReg, readKeyboard_of_no_key hkeys]
    rfl
  case keyboardPop =>
    rintro x rest rfl hkeys
    rw [exec_ldw_register hp .keyboard ha, State.mmioReadReg, readKeyboard_of_key hkeys, BitVec.ofNat_toNat]
    rfl
  case unmatched =>
    intro hk
    refine exec_ldw_unmatched hp ha fun r hr => hk ?_
    rw [hr]
    cases r <;> decide

/-! ### Devices (R125, R126, R129, R131) -/

/-- LDW of a register that a device answers: one call if it is attached, and else the absent device's word. -/
theorem exec_ldw_device {a b : Reg} {off : BitVec 20} {s : State} {port : DevicePort} (hp : s.params.wf) (r : MmioReg)
    (ha : (s.effectiveAddress b off).toNat = s.params.ioStart + r.offset)
    (hr : s.mmioReadReg r = s.deviceRead port) :
    (s.attached port = true → exec (.ldw a b off) s = .next { s.writeReg a (s.oracle port) with
      deviceCalls := .read port (s.oracle port) :: s.deviceCalls, deviceTick := s.deviceTick + 1 }) ∧
    (s.attached port = false → exec (.ldw a b off) s = .next (s.writeReg a (absentAnswer port))) := by
  rw [exec_ldw_register hp r ha, hr]
  constructor <;> intro h
  · rw [deviceRead_of_attached h]
    rfl
  · rw [deviceRead_of_absent h]
    rfl

/-- Settles O51: each of the five registers is its port's device read. -/
theorem deviceWordLoads : Obligations.DeviceWordLoads := by
  intro a b off s k port hp ha hport
  simp only [List.mem_cons, Prod.mk.injEq, List.not_mem_nil, or_false] at hport
  rcases hport with ⟨rfl, rfl⟩ | ⟨rfl, rfl⟩ | ⟨rfl, rfl⟩ | ⟨rfl, rfl⟩ | ⟨rfl, rfl⟩
  exacts [exec_ldw_device hp .serialData ha rfl, exec_ldw_device hp .serialStatus ha rfl,
    exec_ldw_device hp .spiData ha rfl, exec_ldw_device hp .clipboardControl ha rfl,
    exec_ldw_device hp .clipboardData ha rfl]

/-! ### Stores (R122 to R129) -/

/-- The two low bits of a word, in numbers (R126). -/
theorem extractLow_two (v : Word) : v.extractLsb' 0 2 = BitVec.ofNat 2 (v.toNat % 4) :=
  BitVec.eq_of_toNat_eq (by simp)

/-- A register outside the writable offsets ignores the write (R120). -/
theorem mmioWriteReg_of_read_only (s : State) (v : Word) {r : MmioReg} (h : r.offset ∉ [4, 8, 16, 20, 40, 44]) :
    s.mmioWriteReg v r = s := by
  cases r with
  | timer | serialStatus | mouse | keyboard => rfl
  | switchesLeds | serialData | spiData | spiControl | clipboardControl | clipboardData =>
    exact absurd (by decide) h

/-- Settles O52: each writable register's write, and nothing at a read-only or unmatched offset. -/
theorem mmioWordStores : Obligations.MmioWordStores := by
  intro a b off s k hp ha
  refine ⟨?leds, ?spiControl, ?devices, ?ignored⟩
  case leds => rintro rfl; exact exec_stw_register hp .switchesLeds ha
  case spiControl =>
    rintro rfl
    rw [exec_stw_register hp .spiControl ha, State.mmioWriteReg, extractLow_two]
  case devices =>
    intro port hport
    simp only [List.mem_cons, Prod.mk.injEq, List.not_mem_nil, or_false] at hport
    rcases hport with ⟨rfl, rfl⟩ | ⟨rfl, rfl⟩ | ⟨rfl, rfl⟩ | ⟨rfl, rfl⟩
    exacts [exec_stw_register hp .serialData ha, exec_stw_register hp .spiData ha,
      exec_stw_register hp .clipboardControl ha, exec_stw_register hp .clipboardData ha]
  case ignored =>
    intro hk
    exact exec_stw_ignored hp ha fun r hr => mmioWriteReg_of_read_only s (s.reg a) (hr ▸ hk)

end Sys2Proof.Machine
end

section
/-! The host's inputs: the keyboard queue and the mouse word (R127, R128, R139). -/

namespace Sys2Proof.Machine

theorem pushKey_of_room {s : State} (h : s.keys.length < s.params.keyQueueCap) (b : Byte) :
    s.pushKey b = { s with keys := s.keys ++ [b] } :=
  if_pos h

theorem pushKey_of_full {s : State} (h : s.params.keyQueueCap ≤ s.keys.length) (b : Byte) : s.pushKey b = s :=
  if_neg (Nat.not_lt.2 h)

/-- The low `n` bits of a word, zero-extended, in numbers. -/
theorem lowField_toNat (x : Word) {n : Nat} (hn : n ≤ 32) :
    ((x.extractLsb' 0 n).setWidth 32).toNat = x.toNat % 2 ^ n := by
  rw [BitVec.toNat_setWidth_of_le hn, BitVec.extractLsb'_toNat, Nat.shiftRight_zero]

/-- The low `n` bits of a word, moved up by `k` places that leave them room. -/
theorem lowField_shiftLeft_toNat (x : Word) {n k : Nat} (h : n + k ≤ 32) :
    ((x.extractLsb' 0 n).setWidth 32 <<< k).toNat = x.toNat % 2 ^ n * 2 ^ k := by
  have hlt : x.toNat % 2 ^ n * 2 ^ k < 2 ^ 32 :=
    calc x.toNat % 2 ^ n * 2 ^ k < 2 ^ n * 2 ^ k :=
          Nat.mul_lt_mul_of_pos_right (Nat.mod_lt _ (Nat.two_pow_pos n)) (Nat.two_pow_pos k)
      _ = 2 ^ (n + k) := (Nat.pow_add 2 n k).symm
      _ ≤ 2 ^ 32 := Nat.pow_le_pow_right (by decide) h
  rw [BitVec.toNat_shiftLeft, lowField_toNat x (by omega), Nat.shiftLeft_eq, Nat.mod_eq_of_lt hlt]

/-- The three fields of the mouse word lie in disjoint bits, so their sum does not wrap (R127). -/
theorem setMouse_mouse_toNat (s : State) (x y buttons : Word) : (s.setMouse x y buttons).mouse.toNat =
    x.toNat % 2 ^ 12 + y.toNat % 2 ^ 12 * 2 ^ 12 + buttons.toNat % 2 ^ 3 * 2 ^ 24 := by
  rw [State.setMouse, BitVec.toNat_add, BitVec.toNat_add, lowField_toNat x (by decide),
    lowField_shiftLeft_toNat y (by decide), lowField_shiftLeft_toNat buttons (by decide)]
  omega

/-- Settles O54, from the rules above. -/
theorem hostInputsArrive : Obligations.HostInputsArrive := fun s b x y buttons =>
  ⟨(pushKey_of_room · b), (pushKey_of_full · b), setMouse_mouse_toNat s x y buttons, rfl⟩

end Sys2Proof.Machine
end

section
/-! The reset operation (R134, R135) and `run` (R138). -/

namespace Sys2Proof.Machine

/-! ### The reset operation -/

theorem resetPc_eq_setPc (s : State) : s.resetPc = s.setPc (BitVec.ofNat 32 (s.params.romStart / 4)) := rfl

/-- A second write of the pc overrides the first. -/
theorem setPc_setPc (s : State) (a b : Word) : (s.setPc a).setPc b = s.setPc b := rfl

/-- Settles O14: the pc's new value depends on the parameters only, which a reset keeps. -/
theorem resetOperationIdempotent : Obligations.ResetOperationIdempotent := by
  intro s
  refine ⟨resetPc_eq_setPc s, ?_⟩
  rw [resetPc_eq_setPc s.resetPc, resetPc_params, resetPc_eq_setPc s, setPc_setPc]

/-! ### The loop of `run` -/

theorem runLoop_zero (taken : Nat) (s : State) : runLoop 0 taken s = (taken, .next s) := rfl

/-- A machine whose counter ran out takes no step, whatever the budget. -/
theorem runLoop_of_progress_nonpos {s : State} (h : s.progress ≤ 0) (budget taken : Nat) :
    runLoop budget taken s = (taken, .next s) := by
  cases budget with
  | zero => rfl
  | succ k => exact if_neg (Int.not_lt.2 h)

theorem runLoop_of_step {s t : State} (h : 0 < s.progress) (hstep : step s = .next t) (budget taken : Nat) :
    runLoop (budget + 1) taken s = runLoop budget (taken + 1) t := by
  rw [runLoop, if_pos h, hstep]

/-- The loop ends in a next state, within its budget, and before it only because the counter ran out. -/
theorem runLoop_ends (budget taken : Nat) (s : State) :
    ∃ m t, runLoop budget taken s = (m, .next t) ∧ m ≤ taken + budget ∧
      (m < taken + budget → t.progress ≤ 0) := by
  induction budget generalizing taken s with
  | zero => exact ⟨taken, s, rfl, Nat.le_refl _, fun hlt => absurd hlt (Nat.lt_irrefl _)⟩
  | succ budget ih =>
    by_cases hs : 0 < s.progress
    · obtain ⟨u, hstep⟩ := stepNeverStops s
      obtain ⟨m, t, hrun, hle, hshort⟩ := ih (taken + 1) u
      exact ⟨m, t, (runLoop_of_step hs hstep budget taken).trans hrun, by omega, fun _ => hshort (by omega)⟩
    · have hs : s.progress ≤ 0 := Int.not_lt.1 hs
      exact ⟨taken, s, runLoop_of_progress_nonpos hs _ _, Nat.le_add_right _ _, fun _ => hs⟩

/-- More budget resumes the loop where it ended: it goes on from a spent budget, and a counter that ran out stops it
again at once. -/
theorem runLoop_add {budget taken m : Nat} {s t : State} (h : runLoop budget taken s = (m, .next t)) (more : Nat) :
    runLoop (budget + more) taken s = runLoop more m t := by
  induction budget generalizing taken s with
  | zero =>
    obtain ⟨rfl, rfl⟩ : taken = m ∧ s = t := by simpa [runLoop_zero] using h
    rw [Nat.zero_add]
  | succ budget ih =>
    by_cases hs : 0 < s.progress
    · obtain ⟨u, hstep⟩ := stepNeverStops s
      rw [runLoop_of_step hs hstep] at h
      rw [Nat.add_right_comm, runLoop_of_step hs hstep, ih h]
    · have hs : s.progress ≤ 0 := Int.not_lt.1 hs
      obtain ⟨rfl, rfl⟩ : taken = m ∧ s = t := by simpa [runLoop_of_progress_nonpos hs] using h
      rw [runLoop_of_progress_nonpos hs, runLoop_of_progress_nonpos hs]

/-! ### `run` -/

theorem run_zero (s : State) : s.run 0 = (0, .next { s with progress := s.params.progressInit }) := rfl

theorem run_ends (s : State) (cycles : Nat) :
    ∃ k t, s.run cycles = (k, .next t) ∧ k ≤ cycles ∧ (k < cycles → t.progress ≤ 0) := by
  simpa only [State.run, Nat.zero_add] using runLoop_ends cycles 0 { s with progress := s.params.progressInit }

/-- A run that left budget over ended because the counter ran out. -/
theorem progress_nonpos_of_run_short {s t : State} {k cycles : Nat} (hrun : s.run cycles = (k, .next t))
    (hk : k < cycles) : t.progress ≤ 0 := by
  obtain ⟨k', t', hrun', -, hshort⟩ := run_ends s cycles
  obtain ⟨rfl, rfl⟩ : k = k' ∧ t = t' := by simpa [hrun] using hrun'
  exact hshort hk

theorem run_succ {s t : State} {k cycles : Nat} (hrun : s.run cycles = (k, .next t)) :
    s.run (cycles + 1) = runLoop 1 k t :=
  runLoop_add hrun 1

/-- Settles O15: one more cycle runs the loop once more from where the run ended. -/
theorem runFollowsStep : Obligations.RunFollowsStep := by
  intro s cycles
  refine ⟨run_zero s, run_ends s cycles, ?spent, ?short⟩
  case spent =>
    intro t u hrun hstep
    rw [run_succ hrun]
    split
    next hpos => rw [runLoop_of_step hpos hstep, runLoop_zero]
    next hneg => exact runLoop_of_progress_nonpos (Int.not_lt.1 hneg) 1 cycles
  case short =>
    intro k t hk hrun
    rw [run_succ hrun, runLoop_of_progress_nonpos (progress_nonpos_of_run_short hrun hk)]

end Sys2Proof.Machine
end

section
/-! FLOOR: the adder's integer result, and what it answers for the constant 0x4B000000 (R87, R88). -/

namespace Sys2Proof.Machine

/-! ### The integer result (R87, step 6) -/

/-- The working sum read as a signed number is the sum it stands for, and its half fits in a word. -/
theorem toInt_fadInteger {n : Nat} {sum : Int} (h : StandsFor n sum) : (fadInteger n).toInt = sum / 2 := by
  obtain ⟨hmod, -, hmag⟩ := h
  have hsigned : (BitVec.ofNat 27 n).toInt = sum := by
    rw [BitVec.toInt_eq_toNat_cond, BitVec.toNat_ofNat]
    split <;> omega
  rw [fadInteger, hsigned, BitVec.toInt_ofInt_eq_self (by decide) (by omega) (by omega)]

theorem floatAdd_integer (u : Bool) (x y : Word) : floatAdd u true x y = fadInteger (fadSum u true x y) := by
  rw [floatAdd, if_pos rfl]

/-! ### FLOOR (R88) -/

section
variable {x : Word} (he : floatExp x ≤ 150)
include he

/-- The constant adds its exponent and nothing else: the working sum is the float's significand, doubled and shifted
to the exponent 150. -/
theorem fadSum_floor_standsFor :
    StandsFor (fadSum false true x 0x4B000000#32)
      (signedMag (floatSign x) (2 * floatMant x) / 2 ^ (150 - floatExp x)) := by
  have hx := (signedMantissa_float x).shifted (150 - floatExp x)
  have hy : SignedMantissa (floatSign 0x4B000000#32) 0 := by unfold SignedMantissa; decide
  have h := fadTerm_add_standsFor hx hy
  have hexp : floatExp 0x4B000000#32 = 150 := by decide
  have hexpX : fadExpX false x = floatExp x := rfl
  have hmant : fadAlign (fadMantY false true 0x4B000000#32) 0 = 0 := by decide
  rw [fadSum, hexpX, fadMantX_plain, hexp, fadAlign_float, Nat.sub_eq_zero_of_le he, hmant]
  rwa [Int.add_zero] at h

/-- Halving undoes the doubling of the significand, under the floor. -/
theorem toInt_floatAdd_floor :
    (floatAdd false true x 0x4B000000#32).toInt =
      signedMag (floatSign x) (floatMant x) / 2 ^ (150 - floatExp x) := by
  rw [floatAdd_integer, toInt_fadInteger (fadSum_floor_standsFor he), Nat.mul_comm, signedMag_mul, Nat.cast_ofNat,
    Int.ediv_ediv_of_nonneg (by positivity), Int.mul_ediv_mul_of_pos_left _ _ (by decide)]

end

/-- Settles O40: FAD.V writes the integer result of the sum with the constant. -/
theorem floorConvertsExactly : Obligations.FloorConvertsExactly := by
  intro a b k s hk he
  refine ⟨_, rfl, ?_⟩
  rw [reg_writeReg_same, State.operand, hk]
  exact toInt_floatAdd_floor he

end Sys2Proof.Machine
end

section
/-! The state after reset (R32, R134). -/

namespace Sys2Proof.Machine

theorem romOfImage_nil (words base : Nat) : romOfImage words base [] = [] := by
  cases words <;> rfl

/-- Settles O13: an empty image lists no ROM word, and the default parameters give reset's other fields. -/
theorem resetIsDefaultConstruction : Obligations.ResetIsDefaultConstruction :=
  ⟨by rw [State.construct, romOfImage_nil]; rfl, by decide, rfl, rfl⟩

end Sys2Proof.Machine
end
